-- ==== Sys2Proof/Word.lean ====
section
/-! DEFINITION. The word types of MMEC and its two operand widths (00_scope.md R7, R8). -/

namespace Sys2Proof

/-- One limb, and one word of the host bus: 64 bits (00_scope.md R7, `WORD` and `BUS`). -/
abbrev Limb := BitVec 64

/-- A wide register: 512 bits at both operand widths (00_scope.md R7, `PHYS`). -/
abbrev Wide := BitVec 512

/-- The two operand widths (00_scope.md R8), as `CTRL.SIZE` selects them. -/
inductive Width where
  | w256
  | w512
deriving DecidableEq, Repr

/-- `S`, the limbs per operand (00_scope.md R7). -/
def Width.limbs : Width → Nat
  | .w256 => 4
  | .w512 => 8

/-- `W = 64·S`, the operand width in bits (00_scope.md R7). -/
def Width.bits : Width → Nat
  | .w256 => 256
  | .w512 => 512

end Sys2Proof
end

