-- ==== Sys2Proof/Syntax.lean ====
section
/-! DEFINITION. The commands of MMEC: one constructor per row of the opcode map (30_encoding.md R95). -/

namespace Sys2Proof

/-- A `v` operand field: every 4-bit value names a V register (30_encoding.md R92). -/
abbrev VField := BitVec 4

/-- A `pt` operand field: 4 bits of the word, of which only the values 0 to 3 are legal (R92). -/
abbrev PtField := BitVec 4

/-- A `c` operand field: 4 bits of the word, of which 0 = X, 1 = Y and 2 = Z are legal (R92). -/
abbrev CField := BitVec 4

/-- The `M` field: which modulus set a modular command uses (30_encoding.md R91, R94). -/
inductive ModSel where
  | p
  | q
deriving DecidableEq, Repr

/-- A command. Operands stand in the order RD, RS1, RS2; fields of kind `-` are absent (R95, R102). -/
inductive Instr where
  | nop
  | mov (vd vs : VField)
  | icmp (vs1 vs2 : VField)
  | mmul (m : ModSel) (vd vs1 vs2 : VField)
  | madd (m : ModSel) (vd vs1 vs2 : VField)
  | msub (m : ModSel) (vd vs1 vs2 : VField)
  | mdbl (m : ModSel) (vd vs : VField)
  | tomont (m : ModSel) (vd vs : VField)
  | frommont (m : ModSel) (vd vs : VField)
  | mexp (m : ModSel) (vd vbase vexp : VField)
  | minv (m : ModSel) (vd vs : VField)
  | pinf (ptd : PtField)
  | pmov (ptd pts : PtField)
  | pget (vd : VField) (pts : PtField) (c : CField)
  | pput (ptd : PtField) (vs : VField) (c : CField)
  | pisinf (pts : PtField)
  | ponc (pts : PtField)
  | pdbl (ptd pts : PtField)
  | padd (ptd pts1 pts2 : PtField)
  | paff (ptd pts : PtField)
  | pmul (ptd pts : PtField) (vk : VField)
deriving DecidableEq, Repr

end Sys2Proof
end

