-- ==== Sys2Proof/WellFormed.lean ====
section
/-! DEFINITION. Which commands have legal operand fields (30_encoding.md R92, R97). -/

namespace Sys2Proof

/-- A `pt` field must be 0 to 3: its bits 3:2 are zero (30_encoding.md R92). -/
def ptFieldOk (f : PtField) : Bool := decide (f.toNat < 4)

/-- A `c` field must be 0, 1 or 2 (30_encoding.md R92). -/
def coordFieldOk (c : CField) : Bool := decide (c.toNat < 3)

/-- The operand-kind part of R97: every `pt` field is at most 3 and every `c` field at most 2. -/
def wellFormed : Instr → Bool
  | .nop => true
  | .mov _ _ => true
  | .icmp _ _ => true
  | .mmul _ _ _ _ => true
  | .madd _ _ _ _ => true
  | .msub _ _ _ _ => true
  | .mdbl _ _ _ => true
  | .tomont _ _ _ => true
  | .frommont _ _ _ => true
  | .mexp _ _ _ _ => true
  | .minv _ _ _ => true
  | .pinf ptd => ptFieldOk ptd
  | .pmov ptd pts => ptFieldOk ptd && ptFieldOk pts
  | .pget _ pts c => ptFieldOk pts && coordFieldOk c
  | .pput ptd _ c => ptFieldOk ptd && coordFieldOk c
  | .pisinf pts => ptFieldOk pts
  | .ponc pts => ptFieldOk pts
  | .pdbl ptd pts => ptFieldOk ptd && ptFieldOk pts
  | .padd ptd pts1 pts2 => ptFieldOk ptd && (ptFieldOk pts1 && ptFieldOk pts2)
  | .paff ptd pts => ptFieldOk ptd && ptFieldOk pts
  | .pmul ptd pts _ => ptFieldOk ptd && ptFieldOk pts

end Sys2Proof
end

