-- ==== Sys2Proof/Decode.lean ====
section
/-! DEFINITION. Decoding a value written to `CMD` and encoding a command (30_encoding.md R90 to R97,
R100, R102). Total: every 64-bit value is a command or is rejected by the name of its error. -/

namespace Sys2Proof

/-- Why a value written to `CMD` is no command (the first two checks of 30_encoding.md R100). -/
inductive DecodeError where
  /-- The opcode is reserved (30_encoding.md R96). -/
  | illegalOpcode
  /-- The opcode is defined and some condition of 30_encoding.md R97 holds. -/
  | reservedField
deriving DecidableEq, Repr

/-- The fields of a value written to `CMD` (30_encoding.md R90, R91): `high` is bits 63:32, `res1` the
reserved bits 24:16 and `res0` the reserved bits 3:0. -/
structure CmdFields where
  high : BitVec 32
  opc : BitVec 6
  m : BitVec 1
  res1 : BitVec 9
  rd : BitVec 4
  rs1 : BitVec 4
  rs2 : BitVec 4
  res0 : BitVec 4
deriving DecidableEq, Repr

/-- The fields of `w`, at the bit positions of 30_encoding.md R91. -/
def cmdFields (w : Limb) : CmdFields where
  high := w.extractLsb' 32 32
  opc := w.extractLsb' 26 6
  m := w.extractLsb' 25 1
  res1 := w.extractLsb' 16 9
  rd := w.extractLsb' 12 4
  rs1 := w.extractLsb' 8 4
  rs2 := w.extractLsb' 4 4
  res0 := w.extractLsb' 0 4

/-- The modulus set that the `M` bit selects (30_encoding.md R94). -/
def modSelOf (m : BitVec 1) : ModSel := if m = 0#1 then .p else .q

/-- One row of the opcode map read out of the fields: the command, and whether `M` and the operand
fields that the row does not use are zero (the columns of 30_encoding.md R95). -/
structure RowReading where
  instr : Instr
  unusedZero : Bool
deriving DecidableEq, Repr

/-- A row whose `M` column is `sel`. -/
def selRow (i : Instr) (unused : List (BitVec 4)) : RowReading :=
  ⟨i, unused.all (· == 0#4)⟩

/-- A row whose `M` column is 0. -/
def plainRow (f : CmdFields) (i : Instr) (unused : List (BitVec 4)) : RowReading :=
  ⟨i, f.m == 0#1 && unused.all (· == 0#4)⟩

/-- The opcode map (30_encoding.md R95); a reserved opcode (R96) has no row. -/
def readRow (f : CmdFields) : Option RowReading :=
  match f.opc.toNat with
  | 0x00 => some (plainRow f .nop [f.rd, f.rs1, f.rs2])
  | 0x01 => some (plainRow f (.mov f.rd f.rs1) [f.rs2])
  | 0x02 => some (plainRow f (.icmp f.rs1 f.rs2) [f.rd])
  | 0x08 => some (selRow (.mmul (modSelOf f.m) f.rd f.rs1 f.rs2) [])
  | 0x09 => some (selRow (.madd (modSelOf f.m) f.rd f.rs1 f.rs2) [])
  | 0x0A => some (selRow (.msub (modSelOf f.m) f.rd f.rs1 f.rs2) [])
  | 0x0B => some (selRow (.mdbl (modSelOf f.m) f.rd f.rs1) [f.rs2])
  | 0x0C => some (selRow (.tomont (modSelOf f.m) f.rd f.rs1) [f.rs2])
  | 0x0D => some (selRow (.frommont (modSelOf f.m) f.rd f.rs1) [f.rs2])
  | 0x0E => some (selRow (.mexp (modSelOf f.m) f.rd f.rs1 f.rs2) [])
  | 0x0F => some (selRow (.minv (modSelOf f.m) f.rd f.rs1) [f.rs2])
  | 0x10 => some (plainRow f (.pinf f.rd) [f.rs1, f.rs2])
  | 0x11 => some (plainRow f (.pmov f.rd f.rs1) [f.rs2])
  | 0x12 => some (plainRow f (.pget f.rd f.rs1 f.rs2) [])
  | 0x13 => some (plainRow f (.pput f.rd f.rs1 f.rs2) [])
  | 0x14 => some (plainRow f (.pisinf f.rs1) [f.rd, f.rs2])
  | 0x15 => some (plainRow f (.ponc f.rs1) [f.rd, f.rs2])
  | 0x16 => some (plainRow f (.pdbl f.rd f.rs1) [f.rs2])
  | 0x17 => some (plainRow f (.padd f.rd f.rs1 f.rs2) [])
  | 0x18 => some (plainRow f (.paff f.rd f.rs1) [f.rs2])
  | 0x19 => some (plainRow f (.pmul f.rd f.rs1 f.rs2) [])
  | _ => none

/-- The reserved bits that every command has: 63:32, 24:16 and 3:0 (30_encoding.md R97). -/
def reservedBitsZero (f : CmdFields) : Bool :=
  f.high == 0#32 && f.res1 == 0#9 && f.res0 == 0#4

/-- The first two checks of `Validate` (30_encoding.md R100): a reserved opcode first, then every
condition of R97. -/
def decode (w : Limb) : Except DecodeError Instr :=
  let f := cmdFields w
  match readRow f with
  | none => .error .illegalOpcode
  | some r =>
    if reservedBitsZero f && r.unusedZero && wellFormed r.instr then .ok r.instr
    else .error .reservedField

/-- The command read from a value numbered as spec/opcode_table.json numbers bits: bit 0 is the least
significant bit of the word, and the bits above `nbits` are zero. -/
def decodeTableWord (nbits w : Nat) : Option Instr :=
  match decode (BitVec.ofNat 64 (w % 2 ^ nbits)) with
  | .ok i => some i
  | .error _ => none

/-- The `M` bit of a modulus-set selection (30_encoding.md R91). -/
def modBit : ModSel → BitVec 1
  | .p => 0#1
  | .q => 1#1

/-- `(OPC << 26) | (M << 25) | (RD << 12) | (RS1 << 8) | (RS2 << 4)` (30_encoding.md R102). -/
def packWord (opc : BitVec 6) (m : BitVec 1) (rd rs1 rs2 : BitVec 4) : BitVec 32 :=
  (opc.setWidth 32 <<< 26) ||| (m.setWidth 32 <<< 25) ||| (rd.setWidth 32 <<< 12)
    ||| (rs1.setWidth 32 <<< 8) ||| (rs2.setWidth 32 <<< 4)

/-- The command word of a command, row by row of the opcode map (30_encoding.md R95, R102). -/
def encode : Instr → BitVec 32
  | .nop => packWord 0x00#6 0#1 0#4 0#4 0#4
  | .mov vd vs => packWord 0x01#6 0#1 vd vs 0#4
  | .icmp vs1 vs2 => packWord 0x02#6 0#1 0#4 vs1 vs2
  | .mmul m vd vs1 vs2 => packWord 0x08#6 (modBit m) vd vs1 vs2
  | .madd m vd vs1 vs2 => packWord 0x09#6 (modBit m) vd vs1 vs2
  | .msub m vd vs1 vs2 => packWord 0x0A#6 (modBit m) vd vs1 vs2
  | .mdbl m vd vs => packWord 0x0B#6 (modBit m) vd vs 0#4
  | .tomont m vd vs => packWord 0x0C#6 (modBit m) vd vs 0#4
  | .frommont m vd vs => packWord 0x0D#6 (modBit m) vd vs 0#4
  | .mexp m vd vbase vexp => packWord 0x0E#6 (modBit m) vd vbase vexp
  | .minv m vd vs => packWord 0x0F#6 (modBit m) vd vs 0#4
  | .pinf ptd => packWord 0x10#6 0#1 ptd 0#4 0#4
  | .pmov ptd pts => packWord 0x11#6 0#1 ptd pts 0#4
  | .pget vd pts c => packWord 0x12#6 0#1 vd pts c
  | .pput ptd vs c => packWord 0x13#6 0#1 ptd vs c
  | .pisinf pts => packWord 0x14#6 0#1 0#4 pts 0#4
  | .ponc pts => packWord 0x15#6 0#1 0#4 pts 0#4
  | .pdbl ptd pts => packWord 0x16#6 0#1 ptd pts 0#4
  | .padd ptd pts1 pts2 => packWord 0x17#6 0#1 ptd pts1 pts2
  | .paff ptd pts => packWord 0x18#6 0#1 ptd pts 0#4
  | .pmul ptd pts vk => packWord 0x19#6 0#1 ptd pts vk

/-- The 64-bit value the host writes to `CMD` for a command: its word below 32 zero bits (R90). -/
def cmdValue (i : Instr) : Limb := (encode i).setWidth 64

end Sys2Proof
end

