-- ==== Sys2Proof/Machine/Arith.lean ====
section
/-! DEFINITION. The modular arithmetic of MMEC on natural numbers (41_modular.md, 42_modexp.md R181,
R183). `W` is the operand width in bits and `m` the modulus. -/

namespace Sys2Proof.Machine

/-- `inv_m(2^W)` for odd `m` (00_scope.md R10, 41_modular.md R141): the `W`-th power of `(m+1)/2`,
which is the inverse of 2. -/
def invRadix (W m : Nat) : Nat := ((m + 1) / 2) ^ W % m

/-- The Montgomery product `MM_m(x, y) = x · y · inv_m(2^W) mod m` (41_modular.md R141). -/
def montMul (W m x y : Nat) : Nat := x * y * invRadix W m % m

/-- `word(t, i)`, bits 64·i+63 to 64·i (00_scope.md R9). -/
def natLimb (t i : Nat) : Nat := t / 2 ^ (64 * i) % 2 ^ 64

/-- One reduction round of 41_modular.md R144. -/
def montRound (m n0 t i : Nat) : Nat :=
  t + natLimb t i * n0 % 2 ^ 64 * m * 2 ^ (64 * i)

/-- Rounds `0` to `k − 1` of 41_modular.md R144, in that order. -/
def montRounds (m n0 : Nat) : Nat → Nat → Nat
  | 0, t => t
  | k + 1, t => montRound m n0 (montRounds m n0 k t) k

/-- The multiply-reduce algorithm of 41_modular.md R144, with `S` limbs. Descriptive in the spec
(R144, decision D37): `montMul` is the architectural result. -/
def montMulAlg (x y m n0 S : Nat) : Nat :=
  let u := montRounds m n0 S (x * y) / 2 ^ (64 * S)
  if m ≤ u then u - m else u

/-- `Add_W(x, y) = (c, s)` (41_modular.md R160). -/
def addW (W x y : Nat) : Nat × Nat := ((x + y) / 2 ^ W, (x + y) % 2 ^ W)

/-- `Sub_W(x, y) = (b, d)` for W-bit `x` and `y` (41_modular.md R160). -/
def subW (W x y : Nat) : Nat × Nat :=
  (if x < y then 1 else 0, (x + 2 ^ W - y) % 2 ^ W)

/-- The conditional subtraction of 41_modular.md R161 and R169: `c` is the bit above the sum `s`. -/
def reduceOnce (W m c s : Nat) : Nat :=
  let bd := subW W s m
  if c = 0 ∧ bd.1 = 1 then s else bd.2

/-- Modular addition (41_modular.md R161). -/
def modAdd (W m x y : Nat) : Nat :=
  let cs := addW W x y
  reduceOnce W m cs.1 cs.2

/-- Modular subtraction (41_modular.md R165). -/
def modSub (W m x y : Nat) : Nat :=
  let bd := subW W x y
  let ce := addW W bd.2 m
  if bd.1 = 1 then ce.2 else bd.2

/-- Modular doubling (41_modular.md R169): a 1-bit left shift that keeps the bit shifted out. -/
def modDbl (W m x : Nat) : Nat :=
  let top := if x.testBit (W - 1) then 1 else 0
  reduceOnce W m top (2 * x % 2 ^ W)

/-- `ONE_m = 2^W mod m` (42_modexp.md R181). -/
def oneMont (W m : Nat) : Nat := 2 ^ W % m

/-- The iterations of 42_modexp.md R183 for the exponent bits `i − 1` down to 0. -/
def expLoop (W m x k : Nat) : Nat → Nat → Nat
  | 0, acc => acc
  | i + 1, acc =>
    let sq := montMul W m acc acc
    let t := montMul W m sq x
    expLoop W m x k i (if k.testBit i then t else sq)

/-- Montgomery-domain exponentiation: exactly `W` iterations from `ONE_m` (42_modexp.md R183, R185). -/
def montExp (W m x k : Nat) : Nat := expLoop W m x k W (oneMont W m)

/-- The inverse by Fermat's theorem: the exponent is `m − 2` (42_modexp.md R187). -/
def montInv (W m x : Nat) : Nat := montExp W m x (m - 2)

end Sys2Proof.Machine
end

