-- ==== Sys2Proof/Machine/Curve.lean ====
section
/-! DEFINITION. Point arithmetic on natural numbers (43_point.md R201 to R232, 44_ladder.md R262). -/

namespace Sys2Proof.Machine

/-- A projective triple of residues in Montgomery form (10_state.md R25). -/
structure Triple where
  x : Nat
  y : Nat
  z : Nat
deriving DecidableEq, Repr

/-- What the field view of 43_point.md R201 reads: the width, `CONST.P`, `CONST.A` and `CONST.B`. -/
structure Field where
  bits : Nat
  p : Nat
  a : Nat
  b : Nat
deriving DecidableEq, Repr

/-- `u·v` (43_point.md R201). -/
def Field.mul (F : Field) (u v : Nat) : Nat := montMul F.bits F.p u v

/-- `u + v` (43_point.md R201). -/
def Field.add (F : Field) (u v : Nat) : Nat := modAdd F.bits F.p u v

/-- `u − v` (43_point.md R201). -/
def Field.sub (F : Field) (u v : Nat) : Nat := modSub F.bits F.p u v

/-- `2·u` (43_point.md R201). -/
def Field.dbl (F : Field) (u : Nat) : Nat := modDbl F.bits F.p u

/-- `3·u`: MDBL then MADD (43_point.md R201). -/
def Field.tpl (F : Field) (u : Nat) : Nat := F.add (F.dbl u) u

/-- The canonical infinity `(0, 1, 0)`, with the integer 1 (10_state.md R26). -/
def infinity : Triple := ⟨0, 1, 0⟩

/-- `DblFormula`, dbl-2007-bl (43_point.md R218). -/
def dblFormula (F : Field) (P : Triple) : Triple :=
  let XX := F.mul P.x P.x
  let ZZ := F.mul P.z P.z
  let w := F.add (F.mul F.a ZZ) (F.tpl XX)
  let s := F.dbl (F.mul P.y P.z)
  let ss := F.mul s s
  let sss := F.mul s ss
  let R := F.mul P.y s
  let RR := F.mul R R
  let XR := F.add P.x R
  let B := F.sub (F.sub (F.mul XR XR) XX) RR
  let h := F.sub (F.mul w w) (F.dbl B)
  let X3 := F.mul h s
  let Y3 := F.sub (F.mul w (F.sub B h)) (F.dbl RR)
  ⟨X3, Y3, sss⟩

/-- `Dbl` (43_point.md R217). -/
def pointDbl (F : Field) (P : Triple) : Triple :=
  if P.z = 0 then P
  else if P.y = 0 then infinity
  else dblFormula F P

/-- `AddFormula`, add-1998-cmo-2 (43_point.md R225). -/
def addFormula (F : Field) (P Q : Triple) : Triple :=
  let Y1Z2 := F.mul P.y Q.z
  let X1Z2 := F.mul P.x Q.z
  let Z1Z2 := F.mul P.z Q.z
  let u := F.sub (F.mul Q.y P.z) Y1Z2
  let uu := F.mul u u
  let v := F.sub (F.mul Q.x P.z) X1Z2
  let vv := F.mul v v
  let vvv := F.mul v vv
  let R := F.mul vv X1Z2
  let A := F.sub (F.sub (F.mul uu Z1Z2) vvv) (F.dbl R)
  let X3 := F.mul v A
  let Y3 := F.sub (F.mul u (F.sub R A)) (F.mul vvv Y1Z2)
  let Z3 := F.mul vvv Z1Z2
  ⟨X3, Y3, Z3⟩

/-- `Add` (43_point.md R224): `P2` infinity first, then `P1`, then the coordinate tests. -/
def pointAdd (F : Field) (P Q : Triple) : Triple :=
  if Q.z = 0 then P
  else if P.z = 0 then Q
  else if F.mul P.x Q.z = F.mul Q.x P.z then
    if F.mul P.y Q.z = F.mul Q.y P.z then pointDbl F P else infinity
  else addFormula F P Q

/-- The curve equation `Y²Z = X³ + aXZ² + bZ³` (43_point.md R214). -/
def onCurve (F : Field) (P : Triple) : Bool :=
  let ZZ := F.mul P.z P.z
  let lhs := F.mul (F.mul P.y P.y) P.z
  let rhs := F.add (F.add (F.mul (F.mul P.x P.x) P.x) (F.mul (F.mul F.a P.x) ZZ))
    (F.mul F.b (F.mul ZZ P.z))
  decide (lhs = rhs)

/-- Reduction to affine form (43_point.md R230). -/
def toAffine (F : Field) (P : Triple) : Triple :=
  if P.z = 0 then infinity
  else
    let Zi := montInv F.bits F.p P.z
    ⟨F.mul P.x Zi, F.mul P.y Zi, oneMont F.bits F.p⟩

/-- The ladder's iterations for the scalar bits `i − 1` down to 0 (44_ladder.md R262): in each
branch both new points are computed from the old `Q` and `R`. -/
def ladderLoop (F : Field) (k : Nat) : Nat → Triple → Triple → Triple
  | 0, Q, _ => Q
  | i + 1, Q, R =>
    if k.testBit i then ladderLoop F k i (pointAdd F Q R) (pointDbl F R)
    else ladderLoop F k i (pointDbl F Q) (pointAdd F R Q)

/-- Scalar multiplication: exactly `W` iterations from `Q = infinity`, `R = P` (44_ladder.md R262). -/
def ladder (F : Field) (P : Triple) (k : Nat) : Triple :=
  ladderLoop F k F.bits infinity P

end Sys2Proof.Machine
end

