-- ==== Sys2Proof/Config.lean ====
section
/-! DEFINITION. The parameters the spec leaves OPEN (00_scope.md R7) and the constants it fixes. -/

namespace Sys2Proof

/-- `BUS_ERROR_SIGNAL` (00_scope.md R7, 20_memory.md R62): whether an illegal access that reaches the
window also gets an error response on the platform bus. OPEN in the spec, so it has no body here and
a claim holds for both answers (notes/assumptions/4.md). -/
opaque Config.busErrorSignal : Bool

/-- `WINDOW_BASE` (00_scope.md R7, 20_memory.md R60): the host address of offset 0 of the window.
OPEN in the spec, so it has no body here; only offsets are architectural (notes/assumptions/4.md). -/
opaque Config.windowBase : Nat

/-- `LATENCY(cmd)` (00_scope.md R7, 70_reset_and_hazards.md R350): the time from acceptance to
completion, finite, OPEN, and a function of the opcode, the width and the error code only. No step
depends on it (notes/assumptions/10.md). -/
opaque Config.latency (opc : BitVec 6) (w : Width) (err : BitVec 4) : Nat

/-- `WIN` (00_scope.md R7): the size of the register window in bytes. -/
def Config.windowSize : Nat := 4096

/-- The value of `ID` (00_scope.md R4, 10_state.md R29). -/
def Config.idWord : Limb := 0x000000014D4D4543#64

end Sys2Proof
end

