-- ==== Sys2Proof/Machine/State.lean ====
section
/-! DEFINITION. The state of MMEC as plain data (10_state.md R20) and its value after reset
(70_reset_and_hazards.md R331). Every register has one home here; `BUSY`, `IRQ` and the 64-bit views
of `CTRL` and `STATUS` are computed from it (Machine/Flags.lean). -/

namespace Sys2Proof.Machine

/-- The error codes of `STATUS.ERR` (60_exceptions.md R280). Codes 6 to 15 are never produced. -/
inductive ErrCode where
  /-- Code 0: the command executed. -/
  | none
  /-- Code 1, `ILLEGAL_OPCODE`. -/
  | illegalOpcode
  /-- Code 2, `RESERVED_FIELD`. -/
  | reservedField
  /-- Code 3, `SIZE`. -/
  | size
  /-- Code 4, `BAD_MODULUS`. -/
  | badModulus
  /-- Code 5, `UNREDUCED`. -/
  | unreduced
deriving DecidableEq, Repr

/-- A point register: three 512-bit coordinate registers (10_state.md R24). -/
structure Point where
  x : Wide
  y : Wide
  z : Wide
deriving DecidableEq, Repr

/-- The six wide constant registers (10_state.md R27). -/
structure Consts where
  p : Wide
  r2p : Wide
  a : Wide
  b : Wide
  q : Wide
  r2q : Wide
deriving DecidableEq, Repr

/-- `CTRL`: the two stored fields (10_state.md R30). `SRST` and the reserved bits read as zero. -/
structure Ctrl where
  size : Width
  ie : Bool
deriving DecidableEq, Repr

/-- `STATUS` but for `BUSY`, which is 1 exactly when a command is pending (10_state.md R32, R39). -/
structure Status where
  done : Bool
  ovr : Bool
  busErr : Bool
  err : ErrCode
  lt : Bool
  eq : Bool
  res : Bool
deriving DecidableEq, Repr

/-- A pending command: the value written to `CMD` and the latched `CTRL.SIZE` (10_state.md R39). -/
structure Pending where
  word : Limb
  size : Width
deriving DecidableEq, Repr

/-- What can reach MMEC from outside, and the slots in which the engine moves (00_scope.md R16,
20_memory.md R71). The offset of an access has 12 bits: offsets at or above 0x1000 never reach MMEC
(20_memory.md R61, notes/assumptions/3.md). -/
inductive Event where
  /-- `HostRead(off, n)` with `n = bytes` (00_scope.md R12). -/
  | read (off : BitVec 12) (bytes : Nat)
  /-- `HostWrite(off, n, v)` with `n = bytes`; `v` is the bus word (00_scope.md R12). -/
  | write (off : BitVec 12) (bytes : Nat) (v : Limb)
  /-- The engine's turn: its completion step falls here (10_state.md R43, 20_memory.md R66). -/
  | engine
  /-- The platform asserts the reset input (70_reset_and_hazards.md R330). -/
  | hardReset
deriving DecidableEq, Repr

/-- What the window answered to a host access. `busError` is the platform's error response, given
only for an illegal access and only where `BUS_ERROR_SIGNAL` says so (20_memory.md R62). -/
inductive Reply where
  | data (v : Limb) (busError : Bool)
  | written (busError : Bool)
deriving DecidableEq, Repr

/-- The state of MMEC (10_state.md R20) with two fields of the model's own: `inbox`, the outside
events still to come, oldest first (notes/assumptions/1.md), and `reply`, the answer to the last host
access (notes/assumptions/2.md). -/
structure State where
  v : Vector Wide 16
  pt : Vector Point 4
  consts : Consts
  n0p : Limb
  n0q : Limb
  ctrl : Ctrl
  status : Status
  cmdLast : Limb
  pending : Option Pending
  inbox : List Event
  reply : Option Reply
deriving DecidableEq, Repr

/-- The reasons a step of MMEC stops with a fault: there are none. Every command completes and no host
access can block (93_implementation_defined.md section 3, 60_exceptions.md R283, R286). -/
inductive Fault
deriving DecidableEq, Repr

/-- The reasons a step of MMEC is refused. -/
inductive Refusal where
  /-- Raised by `exec` for a command that has no meaning yet; safe. No arm of `exec` raises it. -/
  | notModelled (mnemonic : String)
deriving DecidableEq, Repr

/-- The point register contents after reset (70_reset_and_hazards.md R331). -/
def Point.zero : Point := ⟨0, 0, 0⟩

/-- Every register at its reset value (70_reset_and_hazards.md R331); nothing is to come from outside
and nothing has been answered. -/
def State.reset : State where
  v := Vector.replicate 16 0
  pt := Vector.replicate 4 Point.zero
  consts := ⟨0, 0, 0, 0, 0, 0⟩
  n0p := 0
  n0q := 0
  ctrl := ⟨.w256, false⟩
  status := ⟨false, false, false, .none, false, false, false⟩
  cmdLast := 0
  pending := none
  inbox := []
  reply := none

end Sys2Proof.Machine
end

