-- ==== Sys2Proof/Machine/Operands.lean ====
section
/-! DEFINITION. Reading and writing the operands of a command (30_encoding.md R92 to R94) and the limbs
of a wide register (00_scope.md R9). -/

namespace Sys2Proof.Machine

/-- `zext_512` of a result (00_scope.md R11): a wide register that holds `r`. -/
def zextWide (r : Nat) : Wide := BitVec.ofNat 512 r

/-- `word(r, j)`: limb `j` of a wide register (00_scope.md R9). -/
def getLimb (r : Wide) (j : Nat) : Limb := r.extractLsb' (64 * j) 64

/-- `word(r, j) <- x`: the other limbs are unchanged (20_memory.md R67). -/
def setLimb (r : Wide) (j : Nat) (x : Limb) : Wide :=
  (r &&& ~~~((BitVec.allOnes 64).setWidth 512 <<< (64 * j))) ||| (x.setWidth 512 <<< (64 * j))

/-- `V[f]` (30_encoding.md R93). -/
def State.readV (s : State) (f : VField) : Wide := s.v[f.toNat]

/-- `V[f] <- r`. -/
def State.writeV (s : State) (f : VField) (r : Wide) : State :=
  { s with v := s.v.set f.toNat r }

/-- A `pt` field names `PT[f[1:0]]` (30_encoding.md R93). -/
def ptIndex (f : PtField) : Fin 4 := ⟨f.toNat % 4, Nat.mod_lt _ (by decide)⟩

/-- The point register that `f` names. -/
def State.readPt (s : State) (f : PtField) : Point := s.pt[ptIndex f]

/-- `PT[f] <- P`. -/
def State.writePt (s : State) (f : PtField) (P : Point) : State :=
  { s with pt := s.pt.set (ptIndex f) P }

/-- Coordinate `c` of a point: 0 = X, 1 = Y, 2 = Z (30_encoding.md R93). A field above 2 is refused
by `coordFieldOk` before it is used. -/
def Point.coord (P : Point) (c : CField) : Wide :=
  match c.toNat with
  | 0 => P.x
  | 1 => P.y
  | _ => P.z

/-- Coordinate `c` replaced; the other two are unchanged (43_point.md R211). -/
def Point.withCoord (P : Point) (c : CField) (r : Wide) : Point :=
  match c.toNat with
  | 0 => { P with x := r }
  | 1 => { P with y := r }
  | _ => { P with z := r }

/-- The three coordinates of a point, as they stand in a WIDE list (60_exceptions.md R281). -/
def Point.coords (P : Point) : List Wide := [P.x, P.y, P.z]

/-- The values a point register holds. -/
def Point.triple (P : Point) : Triple := ⟨P.x.toNat, P.y.toNat, P.z.toNat⟩

/-- A triple of results as it is written to a point register (00_scope.md R11). -/
def Triple.point (T : Triple) : Point := ⟨zextWide T.x, zextWide T.y, zextWide T.z⟩

/-- A modulus set `(m, n0, r2)` (00_scope.md R15). -/
structure ModSet where
  m : Wide
  n0 : Limb
  r2 : Wide
deriving DecidableEq, Repr

/-- `ModSet(M)` (30_encoding.md R94). -/
def State.modSet (s : State) : ModSel → ModSet
  | .p => ⟨s.consts.p, s.n0p, s.consts.r2p⟩
  | .q => ⟨s.consts.q, s.n0q, s.consts.r2q⟩

/-- The width at which a command runs: the size latched in `PENDING` (10_state.md R42, R43). With no
command pending the engine does not move; the width is then the one an acceptance would latch. -/
def State.runWidth (s : State) : Width :=
  match s.pending with
  | some c => c.size
  | none => s.ctrl.size

/-- The operand width `W` of the running command in bits. -/
def State.runBits (s : State) : Nat := s.runWidth.bits

/-- The field view of the point commands, which always use the set `p` (43_point.md R200, R201). -/
def State.field (s : State) : Field :=
  ⟨s.runBits, s.consts.p.toNat, s.consts.a.toNat, s.consts.b.toNat⟩

end Sys2Proof.Machine
end

