-- ==== Sys2Proof/Machine/Flags.lean ====
section
/-! DEFINITION. `STATUS`, `CTRL`, the result flags and the `IRQ` output (10_state.md R30 to R34, R45). -/

namespace Sys2Proof.Machine

/-- `STATUS.BUSY`: 1 exactly when a command is pending (10_state.md R39). -/
def State.busy (s : State) : Bool := s.pending.isSome

/-- The 4-bit value of an error code (60_exceptions.md R280). -/
def ErrCode.bits : ErrCode → BitVec 4
  | .none => 0#4
  | .illegalOpcode => 1#4
  | .reservedField => 2#4
  | .size => 3#4
  | .badModulus => 4#4
  | .unreduced => 5#4

/-- Bit 0 for `SIZE`: 0 = 256 bits, 1 = 512 bits (10_state.md R30). -/
def sizeBit : Width → Bool
  | .w256 => false
  | .w512 => true

/-- The width that a `SIZE` bit selects (10_state.md R30). -/
def widthOfBit (b : Bool) : Width := if b then .w512 else .w256

/-- `STATUS` as it reads: bits 63:11 are zero (10_state.md R32). -/
def State.statusWord (s : State) : Limb :=
  0#53 ++ BitVec.ofBool s.status.res ++ BitVec.ofBool s.status.eq ++ BitVec.ofBool s.status.lt
    ++ s.status.err.bits
    ++ BitVec.ofBool s.status.busErr ++ BitVec.ofBool s.status.ovr
    ++ BitVec.ofBool s.status.done ++ BitVec.ofBool s.busy

/-- `CTRL` as it reads: `SRST` and bits 63:3 are zero (10_state.md R30, 70_reset_and_hazards.md R332). -/
def State.ctrlWord (s : State) : Limb :=
  0#62 ++ BitVec.ofBool s.ctrl.ie ++ BitVec.ofBool (sizeBit s.ctrl.size)

/-- The `IRQ` output: `CTRL.IE ∧ STATUS.DONE`, a level (10_state.md R45, 60_exceptions.md R290). -/
def State.irq (s : State) : Bool := s.ctrl.ie && s.status.done

/-- ICMP's flags (40_support.md R125): from the borrow and the difference of `Sub_W`. `RES` is
unchanged. -/
def State.setCompareFlags (s : State) (x y : Nat) : State :=
  let bd := subW s.runBits x y
  { s with status :=
    { s.status with lt := decide (bd.1 = 1), eq := decide (bd.1 = 0 ∧ bd.2 = 0) } }

/-- The `RES` flag, written by PISINF and PONC (10_state.md R34). -/
def State.setRes (s : State) (b : Bool) : State :=
  { s with status := { s.status with res := b } }

/-- A host write of `v` to `STATUS`: write-1-to-clear of DONE, OVR and BUSERR (10_state.md R33). -/
def State.writeStatus (s : State) (v : Limb) : State :=
  { s with status :=
    { s.status with
      done := s.status.done && !v.getLsbD 1
      ovr := s.status.ovr && !v.getLsbD 2
      busErr := s.status.busErr && !v.getLsbD 3 } }

/-- `STATUS.OVR <- 1` (10_state.md R36, R44). -/
def State.setOvr (s : State) : State := { s with status := { s.status with ovr := true } }

/-- `STATUS.BUSERR <- 1` (20_memory.md R62). -/
def State.setBusErr (s : State) : State := { s with status := { s.status with busErr := true } }

end Sys2Proof.Machine
end

