-- ==== Sys2Proof/Machine/Ops.lean ====
section
/-! DEFINITION. The operations every command shares: the checks of `Validate` (30_encoding.md R100),
completion with and without an error (10_state.md R43, 60_exceptions.md R283), acceptance (R42) and
reset (70_reset_and_hazards.md R331, R332). MMEC has no trap entry and no return from one
(60_exceptions.md R292, R293): an error is a completion with a code. -/

namespace Sys2Proof.Machine

/-- The lists each instruction rule gives to `Validate` (30_encoding.md R100): whether the operand
fields have legal values (R97), WIDE, MODSET and REDUCED. -/
structure Checks where
  fields : Bool
  wide : List Wide
  modset : Option ModSet
  reduced : List Wide

/-- Some bit above the low 256 of a wide register is set: `r[511:256] ≠ 0` (60_exceptions.md R281). -/
def highNonzero (r : Wide) : Bool := decide (r.toNat / 2 ^ 256 ≠ 0)

/-- `ValidSet(m, n0)` (41_modular.md R142). -/
def validSet (ms : ModSet) : Bool :=
  decide (ms.m.toNat % 2 = 1 ∧ 3 ≤ ms.m.toNat
    ∧ ms.n0.toNat * (getLimb ms.m 0).toNat % 2 ^ 64 = 2 ^ 64 - 1)

/-- The SIZE test (60_exceptions.md R281): it applies at 256 bits only. -/
def sizeOk (w : Width) (wide : List Wide) : Bool :=
  match w with
  | .w256 => wide.all (fun r => !highNonzero r)
  | .w512 => true

/-- The REDUCED test (41_modular.md R143): every listed value is below the modulus. -/
def allReduced (m : Wide) (reduced : List Wide) : Bool :=
  reduced.all (fun x => decide (x.toNat < m.toNat))

/-- `Validate` from the operand-field check on, in its order (30_encoding.md R100). The opcode and the
fields that a command does not have are checked by `decode`. -/
def validate (w : Width) (c : Checks) : ErrCode :=
  if !c.fields then .reservedField
  else if !sizeOk w c.wide then .size
  else
    match c.modset with
    | none => .none
    | some ms =>
      if !validSet ms then .badModulus
      else if !allReduced ms.m c.reduced then .unreduced
      else .none

/-- The last four lines of the completion step (10_state.md R43): `ERR <- code`, `PENDING <- none`,
so `BUSY` is 0, and `DONE <- 1`. -/
def State.complete (s : State) (code : ErrCode) : State :=
  { s with
    status := { s.status with err := code, done := true }
    pending := none }

/-- `raise Error(code)` (60_exceptions.md R283, R284): the completion step with nothing executed. -/
def State.raiseError (s : State) (code : ErrCode) : State := s.complete code

/-- The completion step of a decoded command (10_state.md R43): `Validate`, then `Execute` if the code
is 0, then the status. -/
def runCommand (c : Checks) (effect : State → State) (s : State) :
    Host.Outcome State Fault Refusal :=
  match validate s.runWidth c with
  | .none => .next ((effect s).complete .none)
  | code => .next (s.raiseError code)

/-- The error code of a rejected `CMD` value (30_encoding.md R96, R97). -/
def decodeErrorCode : DecodeError → ErrCode
  | .illegalOpcode => .illegalOpcode
  | .reservedField => .reservedField

/-- Command acceptance (10_state.md R42): the word and the current size are latched; DONE and ERR are
cleared; the flags and the sticky bits are unchanged. -/
def State.accept (s : State) (w : Limb) : State :=
  { s with
    cmdLast := w
    pending := some ⟨w, s.ctrl.size⟩
    status := { s.status with done := false, err := .none } }

/-- Either reset (70_reset_and_hazards.md R331): every register takes its reset value and a pending
command is abandoned. What is still to come from outside and the last answer are not MMEC's. -/
def State.resetAll (s : State) : State :=
  { State.reset with inbox := s.inbox, reply := s.reply }

/-- A host write of `v` to `CTRL` (10_state.md R31): with `v[2] = 1` a soft reset and nothing else of
`v` (70_reset_and_hazards.md R332). -/
def State.writeCtrl (s : State) (v : Limb) : State :=
  if v.getLsbD 2 then s.resetAll
  else { s with ctrl := ⟨widthOfBit (v.getLsbD 0), v.getLsbD 1⟩ }

/-- The 64-bit value of a command given by its low `nbits` bits. -/
def tableWord (nbits w : Nat) : Limb := BitVec.ofNat 64 (w % 2 ^ nbits)

/-- The command `w` accepted, with the engine's turn next (notes/assumptions/7.md). -/
def State.placeCommand (s : State) (w : Limb) : State :=
  { s.accept w with inbox := .engine :: s.inbox }

end Sys2Proof.Machine
end

