-- ==== Sys2Proof/Machine/Ladder.lean ====
section
/-! DEFINITION. The Montgomery ladder: PMUL (44_ladder.md). -/

namespace Sys2Proof.Machine

/-- PMUL (44_ladder.md R262): the scalar is in WIDE and not in REDUCED (R260). -/
def execPmul (ptd pts : PtField) (vk : VField) (s : State) : Host.Outcome State Fault Refusal :=
  runCommand
    ⟨wellFormed (.pmul ptd pts vk),
      (s.readPt pts).coords ++ [s.readV vk, s.consts.p, s.consts.a],
      some (s.modSet .p),
      (s.readPt pts).coords ++ [s.consts.a]⟩
    (fun s => s.writePt ptd
      (ladder s.field (s.readPt pts).triple (s.readV vk).toNat).point) s

end Sys2Proof.Machine
end

