-- ==== Sys2Proof/Machine/Modular.lean ====
section
/-! DEFINITION. The modular family: MMUL, MADD, MSUB, MDBL, TOMONT and FROMMONT (41_modular.md). -/

namespace Sys2Proof.Machine

/-- The lists of a modular command (41_modular.md R140): MODSET is `ModSet(M)` and WIDE holds the
modulus after the wide values `wide`. -/
def modularChecks (ms : ModSet) (wide reduced : List Wide) : Checks :=
  ⟨true, wide ++ [ms.m], some ms, reduced⟩

/-- MMUL (41_modular.md R146). -/
def execMmul (m : ModSel) (vd vs1 vs2 : VField) (s : State) : Host.Outcome State Fault Refusal :=
  runCommand
    (modularChecks (s.modSet m) [s.readV vs1, s.readV vs2] [s.readV vs1, s.readV vs2])
    (fun s => s.writeV vd (zextWide
      (montMul s.runBits (s.modSet m).m.toNat (s.readV vs1).toNat (s.readV vs2).toNat))) s

/-- MADD (41_modular.md R161). -/
def execMadd (m : ModSel) (vd vs1 vs2 : VField) (s : State) : Host.Outcome State Fault Refusal :=
  runCommand
    (modularChecks (s.modSet m) [s.readV vs1, s.readV vs2] [s.readV vs1, s.readV vs2])
    (fun s => s.writeV vd (zextWide
      (modAdd s.runBits (s.modSet m).m.toNat (s.readV vs1).toNat (s.readV vs2).toNat))) s

/-- MSUB (41_modular.md R165). -/
def execMsub (m : ModSel) (vd vs1 vs2 : VField) (s : State) : Host.Outcome State Fault Refusal :=
  runCommand
    (modularChecks (s.modSet m) [s.readV vs1, s.readV vs2] [s.readV vs1, s.readV vs2])
    (fun s => s.writeV vd (zextWide
      (modSub s.runBits (s.modSet m).m.toNat (s.readV vs1).toNat (s.readV vs2).toNat))) s

/-- MDBL (41_modular.md R169). -/
def execMdbl (m : ModSel) (vd vs : VField) (s : State) : Host.Outcome State Fault Refusal :=
  runCommand
    (modularChecks (s.modSet m) [s.readV vs] [s.readV vs])
    (fun s => s.writeV vd (zextWide
      (modDbl s.runBits (s.modSet m).m.toNat (s.readV vs).toNat))) s

/-- TOMONT (41_modular.md R150): `r2` is in WIDE and is the only value in REDUCED. -/
def execTomont (m : ModSel) (vd vs : VField) (s : State) : Host.Outcome State Fault Refusal :=
  runCommand
    (modularChecks (s.modSet m) [s.readV vs, (s.modSet m).r2] [(s.modSet m).r2])
    (fun s => s.writeV vd (zextWide
      (montMul s.runBits (s.modSet m).m.toNat (s.readV vs).toNat (s.modSet m).r2.toNat))) s

/-- FROMMONT (41_modular.md R153, R154): the exit multiplier is the integer 1. -/
def execFrommont (m : ModSel) (vd vs : VField) (s : State) : Host.Outcome State Fault Refusal :=
  runCommand
    (modularChecks (s.modSet m) [s.readV vs] [])
    (fun s => s.writeV vd (zextWide
      (montMul s.runBits (s.modSet m).m.toNat (s.readV vs).toNat 1))) s

end Sys2Proof.Machine
end

