-- ==== Sys2Proof/Machine/Modexp.lean ====
section
/-! DEFINITION. The exponentiation family: MEXP and MINV (42_modexp.md). -/

namespace Sys2Proof.Machine

/-- MEXP (42_modexp.md R183): the base is in REDUCED, the exponent is not (R182). -/
def execMexp (m : ModSel) (vd vbase vexp : VField) (s : State) :
    Host.Outcome State Fault Refusal :=
  runCommand
    (modularChecks (s.modSet m) [s.readV vbase, s.readV vexp] [s.readV vbase])
    (fun s => s.writeV vd (zextWide
      (montExp s.runBits (s.modSet m).m.toNat (s.readV vbase).toNat (s.readV vexp).toNat))) s

/-- MINV (42_modexp.md R187). -/
def execMinv (m : ModSel) (vd vs : VField) (s : State) : Host.Outcome State Fault Refusal :=
  runCommand
    (modularChecks (s.modSet m) [s.readV vs] [s.readV vs])
    (fun s => s.writeV vd (zextWide
      (montInv s.runBits (s.modSet m).m.toNat (s.readV vs).toNat))) s

end Sys2Proof.Machine
end

