-- ==== Sys2Proof/Machine/PointOps.lean ====
section
/-! DEFINITION. The point family: PINF, PMOV, PGET, PPUT, PISINF, PONC, PDBL, PADD and PAFF
(43_point.md). -/

namespace Sys2Proof.Machine

/-- PINF (43_point.md R206). -/
def execPinf (ptd : PtField) (s : State) : Host.Outcome State Fault Refusal :=
  runCommand ⟨wellFormed (.pinf ptd), [], none, []⟩
    (fun s => s.writePt ptd infinity.point) s

/-- PMOV (43_point.md R208). -/
def execPmov (ptd pts : PtField) (s : State) : Host.Outcome State Fault Refusal :=
  runCommand ⟨wellFormed (.pmov ptd pts), (s.readPt pts).coords, none, []⟩
    (fun s => s.writePt ptd (s.readPt pts).triple.point) s

/-- PGET (43_point.md R210): all three coordinates are checked, one is copied. -/
def execPget (vd : VField) (pts : PtField) (c : CField) (s : State) :
    Host.Outcome State Fault Refusal :=
  runCommand ⟨wellFormed (.pget vd pts c), (s.readPt pts).coords, none, []⟩
    (fun s => s.writeV vd (zextWide ((s.readPt pts).coord c).toNat)) s

/-- PPUT (43_point.md R211): the other two coordinates are unchanged. -/
def execPput (ptd : PtField) (vs : VField) (c : CField) (s : State) :
    Host.Outcome State Fault Refusal :=
  runCommand ⟨wellFormed (.pput ptd vs c), [s.readV vs], none, []⟩
    (fun s => s.writePt ptd ((s.readPt ptd).withCoord c (zextWide (s.readV vs).toNat))) s

/-- PISINF (43_point.md R212): no modulus is read. -/
def execPisinf (pts : PtField) (s : State) : Host.Outcome State Fault Refusal :=
  runCommand ⟨wellFormed (.pisinf pts), (s.readPt pts).coords, none, []⟩
    (fun s => s.setRes (decide ((s.readPt pts).z.toNat = 0))) s

/-- PONC (43_point.md R214). -/
def execPonc (pts : PtField) (s : State) : Host.Outcome State Fault Refusal :=
  runCommand
    ⟨wellFormed (.ponc pts),
      (s.readPt pts).coords ++ [s.consts.p, s.consts.a, s.consts.b],
      some (s.modSet .p),
      (s.readPt pts).coords ++ [s.consts.a, s.consts.b]⟩
    (fun s => s.setRes (onCurve s.field (s.readPt pts).triple)) s

/-- PDBL (43_point.md R217). -/
def execPdbl (ptd pts : PtField) (s : State) : Host.Outcome State Fault Refusal :=
  runCommand
    ⟨wellFormed (.pdbl ptd pts),
      (s.readPt pts).coords ++ [s.consts.p, s.consts.a],
      some (s.modSet .p),
      (s.readPt pts).coords ++ [s.consts.a]⟩
    (fun s => s.writePt ptd (pointDbl s.field (s.readPt pts).triple).point) s

/-- PADD (43_point.md R224). -/
def execPadd (ptd pts1 pts2 : PtField) (s : State) : Host.Outcome State Fault Refusal :=
  runCommand
    ⟨wellFormed (.padd ptd pts1 pts2),
      (s.readPt pts1).coords ++ (s.readPt pts2).coords ++ [s.consts.p, s.consts.a],
      some (s.modSet .p),
      (s.readPt pts1).coords ++ (s.readPt pts2).coords ++ [s.consts.a]⟩
    (fun s => s.writePt ptd
      (pointAdd s.field (s.readPt pts1).triple (s.readPt pts2).triple).point) s

/-- PAFF (43_point.md R230): `CONST.A` and `CONST.B` are not read. -/
def execPaff (ptd pts : PtField) (s : State) : Host.Outcome State Fault Refusal :=
  runCommand
    ⟨wellFormed (.paff ptd pts),
      (s.readPt pts).coords ++ [s.consts.p],
      some (s.modSet .p),
      (s.readPt pts).coords⟩
    (fun s => s.writePt ptd (toAffine s.field (s.readPt pts).triple).point) s

end Sys2Proof.Machine
end

