-- ==== Sys2Proof/Machine/Support.lean ====
section
/-! DEFINITION. The support family: NOP, MOV and ICMP (40_support.md). -/

namespace Sys2Proof.Machine

/-- NOP (40_support.md R121): no list, no effect but the completion. -/
def execNop (s : State) : Host.Outcome State Fault Refusal :=
  runCommand ⟨true, [], none, []⟩ (fun s => s) s

/-- MOV (40_support.md R123). -/
def execMov (vd vs : VField) (s : State) : Host.Outcome State Fault Refusal :=
  runCommand ⟨true, [s.readV vs], none, []⟩
    (fun s => s.writeV vd (zextWide (s.readV vs).toNat)) s

/-- ICMP (40_support.md R125). -/
def execIcmp (vs1 vs2 : VField) (s : State) : Host.Outcome State Fault Refusal :=
  runCommand ⟨true, [s.readV vs1, s.readV vs2], none, []⟩
    (fun s => s.setCompareFlags (s.readV vs1).toNat (s.readV vs2).toNat) s

end Sys2Proof.Machine
end

