-- ==== Sys2Proof/Machine/Dispatch.lean ====
section
/-! DEFINITION. The completion step of each decoded command (10_state.md R43), one arm a command. -/

namespace Sys2Proof.Machine

def exec (i : Instr) (s : State) : Host.Outcome State Fault Refusal :=
  match i with
  | .nop => Sys2Proof.Machine.execNop s
  | .mov vd vs => Sys2Proof.Machine.execMov vd vs s
  | .icmp vs1 vs2 => Sys2Proof.Machine.execIcmp vs1 vs2 s
  | .mmul m vd vs1 vs2 => Sys2Proof.Machine.execMmul m vd vs1 vs2 s
  | .madd m vd vs1 vs2 => Sys2Proof.Machine.execMadd m vd vs1 vs2 s
  | .msub m vd vs1 vs2 => Sys2Proof.Machine.execMsub m vd vs1 vs2 s
  | .mdbl m vd vs => Sys2Proof.Machine.execMdbl m vd vs s
  | .tomont m vd vs => Sys2Proof.Machine.execTomont m vd vs s
  | .frommont m vd vs => Sys2Proof.Machine.execFrommont m vd vs s
  | .mexp m vd vbase vexp => Sys2Proof.Machine.execMexp m vd vbase vexp s
  | .minv m vd vs => Sys2Proof.Machine.execMinv m vd vs s
  | .pinf ptd => Sys2Proof.Machine.execPinf ptd s
  | .pmov ptd pts => Sys2Proof.Machine.execPmov ptd pts s
  | .pget vd pts c => Sys2Proof.Machine.execPget vd pts c s
  | .pput ptd vs c => Sys2Proof.Machine.execPput ptd vs c s
  | .pisinf pts => Sys2Proof.Machine.execPisinf pts s
  | .ponc pts => Sys2Proof.Machine.execPonc pts s
  | .pdbl ptd pts => Sys2Proof.Machine.execPdbl ptd pts s
  | .padd ptd pts1 pts2 => Sys2Proof.Machine.execPadd ptd pts1 pts2 s
  | .paff ptd pts => Sys2Proof.Machine.execPaff ptd pts s
  | .pmul ptd pts vk => Sys2Proof.Machine.execPmul ptd pts vk s

end Sys2Proof.Machine
end

