-- ==== Sys2Proof/Machine/Window.lean ====
section
/-! DEFINITION. The register window: the address map, legal and illegal accesses, and what each read
and write does (20_memory.md R60 to R68; 10_state.md R29 to R36, R44). -/

namespace Sys2Proof.Machine

/-- The six wide constant registers, in the order of the address map (20_memory.md R67). -/
inductive ConstReg where
  | p
  | r2p
  | a
  | b
  | q
  | r2q
deriving DecidableEq, Repr

/-- What a legal offset selects (20_memory.md R67). A coordinate is numbered 0 = X, 1 = Y, 2 = Z. -/
inductive WinReg where
  | id
  | ctrl
  | status
  | cmd
  | n0p
  | n0q
  | v (i : VField) (limb : Fin 8)
  | pt (k : PtField) (c : CField) (limb : Fin 8)
  | const (r : ConstReg) (limb : Fin 8)
  | reserved
deriving DecidableEq, Repr

/-- The constant register of index `n` in the order P, R2P, A, B, Q, R2Q (20_memory.md R67). -/
def constRegOf (n : Nat) : ConstReg :=
  match n with
  | 0 => .p
  | 1 => .r2p
  | 2 => .a
  | 3 => .b
  | 4 => .q
  | _ => .r2q

/-- The limb that an offset selects inside its 64-byte register: `(off mod 0x40) div 8`. -/
def limbOf (off : Nat) : Fin 8 := ⟨off % 0x40 / 8, by omega⟩

/-- `AddrDecode` (20_memory.md R67). -/
def addrDecode (off : Nat) : WinReg :=
  if off = 0x000 then .id
  else if off = 0x008 then .ctrl
  else if off = 0x010 then .status
  else if off = 0x018 then .cmd
  else if off = 0x020 then .n0p
  else if off = 0x028 then .n0q
  else if 0x100 ≤ off ∧ off < 0x500 then
    .v (BitVec.ofNat 4 ((off - 0x100) / 0x40)) (limbOf (off - 0x100))
  else if 0x500 ≤ off ∧ off < 0x800 then
    .pt (BitVec.ofNat 4 ((off - 0x500) / 0xC0))
      (BitVec.ofNat 4 ((off - 0x500) % 0xC0 / 0x40)) (limbOf (off - 0x500))
  else if 0x800 ≤ off ∧ off < 0x980 then
    .const (constRegOf ((off - 0x800) / 0x40)) (limbOf (off - 0x800))
  else .reserved

/-- The data registers: the V, PT and CONST registers and `N0P`, `N0Q` (10_state.md R44). -/
def WinReg.isData : WinReg → Bool
  | .id => false
  | .ctrl => false
  | .status => false
  | .cmd => false
  | .n0p => true
  | .n0q => true
  | .v _ _ => true
  | .pt _ _ _ => true
  | .const _ _ => true
  | .reserved => false

/-- A constant register's value. -/
def Consts.get (k : Consts) : ConstReg → Wide
  | .p => k.p
  | .r2p => k.r2p
  | .a => k.a
  | .b => k.b
  | .q => k.q
  | .r2q => k.r2q

/-- One constant register replaced. -/
def Consts.set (k : Consts) (r : ConstReg) (x : Wide) : Consts :=
  match r with
  | .p => { k with p := x }
  | .r2p => { k with r2p := x }
  | .a => { k with a := x }
  | .b => { k with b := x }
  | .q => { k with q := x }
  | .r2q => { k with r2q := x }

/-- What a window register holds, as a 64-bit word (20_memory.md R67, R68; 10_state.md R29, R35). -/
def State.windowWord (s : State) : WinReg → Limb
  | .id => Config.idWord
  | .ctrl => s.ctrlWord
  | .status => s.statusWord
  | .cmd => s.cmdLast
  | .n0p => s.n0p
  | .n0q => s.n0q
  | .v i j => getLimb (s.readV i) j
  | .pt k c j => getLimb ((s.readPt k).coord c) j
  | .const r j => getLimb (s.consts.get r) j
  | .reserved => 0

/-- Byte `j` of a 64-bit window word, its bits 8j+7 to 8j: words are little-endian (20_memory.md R63). -/
def wordByte (x : Limb) (j : Nat) : BitVec 8 := x.extractLsb' (8 * j) 8

/-- The 64-bit word whose byte `j` is `bs[j]`, as an 8-byte access moves it (20_memory.md R63). -/
def wordOfBytes (bs : Vector (BitVec 8) 8) : Limb :=
  bs[7] ++ bs[6] ++ bs[5] ++ bs[4] ++ bs[3] ++ bs[2] ++ bs[1] ++ bs[0]

/-- What the byte address `a` of the window holds: byte `a mod 8` of the word around it
(20_memory.md R63). No access reads it alone, since narrow accesses are illegal (R61). -/
def State.windowByte (s : State) (a : Nat) : BitVec 8 :=
  wordByte (s.windowWord (addrDecode (a - a % 8))) (a % 8)

/-- The legal write that puts the byte `bs[j]` at the byte address `off + j` (20_memory.md R63). -/
def Event.writeBytes (off : BitVec 12) (bs : Vector (BitVec 8) 8) : Event :=
  .write off 8 (wordOfBytes bs)

/-- The value of a legal read (20_memory.md R64, R65): a data register reads 0 while BUSY. -/
def State.legalRead (s : State) (r : WinReg) : Limb :=
  if r.isData && s.busy then 0 else s.windowWord r

/-- A data register written while `BUSY = 0` (20_memory.md R64, R67). Other window registers have
their own write rules and are unchanged here. -/
def State.storeData (s : State) (r : WinReg) (x : Limb) : State :=
  match r with
  | .n0p => { s with n0p := x }
  | .n0q => { s with n0q := x }
  | .v i j => s.writeV i (setLimb (s.readV i) j x)
  | .pt k c j => s.writePt k ((s.readPt k).withCoord c (setLimb ((s.readPt k).coord c) j x))
  | .const r j => { s with consts := s.consts.set r (setLimb (s.consts.get r) j x) }
  | .id => s
  | .ctrl => s
  | .status => s
  | .cmd => s
  | .reserved => s

/-- A host write to `CMD`: accepted while `BUSY = 0` (10_state.md R42), else refused with OVR (R36). -/
def State.writeCmd (s : State) (x : Limb) : State :=
  if s.busy then s.setOvr else s.accept x

/-- A host write to a data register: stored while `BUSY = 0`, else ignored with OVR (10_state.md R44). -/
def State.writeData (s : State) (r : WinReg) (x : Limb) : State :=
  if s.busy then s.setOvr else s.storeData r x

/-- The effect of a legal write (20_memory.md R64): writes to `ID` and to reserved offsets are ignored. -/
def State.legalWrite (s : State) (r : WinReg) (x : Limb) : State :=
  match r with
  | .id => s
  | .ctrl => s.writeCtrl x
  | .status => s.writeStatus x
  | .cmd => s.writeCmd x
  | .reserved => s
  | .n0p => s.writeData .n0p x
  | .n0q => s.writeData .n0q x
  | .v i j => s.writeData (.v i j) x
  | .pt k c j => s.writeData (.pt k c j) x
  | .const r j => s.writeData (.const r j) x

/-- A legal access: 8 bytes wide at an offset that is a multiple of 8 (20_memory.md R61); the third
condition, an offset below 0x1000, is in the type of the offset. -/
def legalAccess (off : BitVec 12) (bytes : Nat) : Bool :=
  decide (bytes = 8 ∧ off.toNat % 8 = 0)

/-- The host address of an offset of the window (20_memory.md R60). -/
def windowAddress (off : BitVec 12) : Nat := Config.windowBase + off.toNat

/-- `HostRead(off, n)` (20_memory.md R62, R64): a legal read changes no register; an illegal one
returns 0 and sets BUSERR. -/
def State.hostRead (s : State) (off : BitVec 12) (bytes : Nat) : State :=
  if legalAccess off bytes then
    { s with reply := some (.data (s.legalRead (addrDecode off.toNat)) false) }
  else { s.setBusErr with reply := some (.data 0 Config.busErrorSignal) }

/-- `HostWrite(off, n, v)` (20_memory.md R62, R64): an illegal write has no effect but BUSERR. -/
def State.hostWrite (s : State) (off : BitVec 12) (bytes : Nat) (x : Limb) : State :=
  if legalAccess off bytes then
    { s.legalWrite (addrDecode off.toNat) x with reply := some (.written false) }
  else { s.setBusErr with reply := some (.written Config.busErrorSignal) }

end Sys2Proof.Machine
end

