-- ==== Sys2Proof/Machine/Engine.lean ====
section
/-! DEFINITION. The engine's step and the serving of one outside event (10_state.md R43,
20_memory.md R71, 70_reset_and_hazards.md R330, R341). -/

namespace Sys2Proof.Machine

/-- The completion of a pending value: `Validate`'s first two checks by the decoder, then the command
(10_state.md R43). A rejected value completes with its error code (60_exceptions.md R283). -/
def completeWord (w : Limb) (s : State) : Host.Outcome State Fault Refusal :=
  match decode w with
  | .ok i => exec i s
  | .error e => .next (s.raiseError (decodeErrorCode e))

/-- How long the command `w` takes from a state in which it is pending: no operand value, constant,
scalar or exponent bit enters, but through the error code (70_reset_and_hazards.md R350,
42_modexp.md R188, 43_point.md R232, 44_ladder.md R264). -/
def commandLatency (w : Limb) (s : State) : Option Nat :=
  match completeWord w s with
  | .next t => some (Config.latency (cmdFields w).opc s.runWidth t.status.err.bits)
  | .fault _ => none
  | .refused _ => none

/-- The engine's turn (10_state.md R43): enabled exactly when a command is pending; otherwise MMEC is
idle and all state persists (60_exceptions.md R308). -/
def engineStep (s : State) : Host.Outcome State Fault Refusal :=
  match s.pending with
  | some c => completeWord c.word s
  | none => .next s

/-- One event, served to its end before the next (20_memory.md R71). -/
def serveEvent (e : Event) (s : State) : Host.Outcome State Fault Refusal :=
  match e with
  | .read off bytes => .next (s.hostRead off bytes)
  | .write off bytes x => .next (s.hostWrite off bytes x)
  | .engine => engineStep s
  | .hardReset => .next s.resetAll

end Sys2Proof.Machine
end

