-- ==== Sys2Proof/Machine/Step.lean ====
section
/-! DEFINITION. One step of MMEC: the next outside event, or the engine's turn when none is to come
(20_memory.md R71, 70_reset_and_hazards.md R341, notes/assumptions/1.md). -/

namespace Sys2Proof.Machine

/-- One step: the oldest event of the inbox is taken out and served; with an empty inbox the engine
moves, so that every accepted command completes after finitely many steps (R341). -/
def step (s : State) : Host.Outcome State Fault Refusal :=
  match s.inbox with
  | [] => engineStep s
  | e :: rest => serveEvent e { s with inbox := rest }

/-- `s` with the command whose low `nbits` bits are `w` accepted and the engine's turn next, so that
the next step runs it (notes/assumptions/7.md). -/
def State.withFetchWord (s : State) (nbits w : Nat) : State :=
  s.placeCommand (tableWord nbits w)

end Sys2Proof.Machine
end

