-- ==== Sys2Proof/Machine/Assembler.lean ====
section
/-! DEFINITION. The assembler's text of a command and the pseudo-instructions (30_encoding.md R102,
R103). Neither is hardware: both are ways to write commands. -/

namespace Sys2Proof.Machine

/-- A V register: `v0` to `v15` (30_encoding.md R102). -/
def vText (f : VField) : String := "v" ++ toString f.toNat

/-- A point register: `pt0` to `pt3` (30_encoding.md R102). -/
def ptText (f : PtField) : String := "pt" ++ toString f.toNat

/-- A coordinate selector: `x`, `y` or `z` (30_encoding.md R102); other fields have no text. -/
def coordText (c : CField) : String :=
  match c.toNat with
  | 0 => "x"
  | 1 => "y"
  | 2 => "z"
  | _ => "?"

/-- The mnemonic of a modular command: `.Q` sets `M = 1` (30_encoding.md R102). -/
def selText (name : String) : ModSel → String
  | .p => name
  | .q => name ++ ".Q"

/-- `MNEMONIC operands`, the operands in the order RD, RS1, RS2 (30_encoding.md R102). -/
def lineText (name : String) (operands : List String) : String :=
  match operands with
  | [] => name
  | _ => name ++ " " ++ String.intercalate ", " operands

/-- The assembler's line for a command (30_encoding.md R102). -/
def asmText : Instr → String
  | .nop => lineText "NOP" []
  | .mov vd vs => lineText "MOV" [vText vd, vText vs]
  | .icmp vs1 vs2 => lineText "ICMP" [vText vs1, vText vs2]
  | .mmul m vd vs1 vs2 => lineText (selText "MMUL" m) [vText vd, vText vs1, vText vs2]
  | .madd m vd vs1 vs2 => lineText (selText "MADD" m) [vText vd, vText vs1, vText vs2]
  | .msub m vd vs1 vs2 => lineText (selText "MSUB" m) [vText vd, vText vs1, vText vs2]
  | .mdbl m vd vs => lineText (selText "MDBL" m) [vText vd, vText vs]
  | .tomont m vd vs => lineText (selText "TOMONT" m) [vText vd, vText vs]
  | .frommont m vd vs => lineText (selText "FROMMONT" m) [vText vd, vText vs]
  | .mexp m vd vbase vexp => lineText (selText "MEXP" m) [vText vd, vText vbase, vText vexp]
  | .minv m vd vs => lineText (selText "MINV" m) [vText vd, vText vs]
  | .pinf ptd => lineText "PINF" [ptText ptd]
  | .pmov ptd pts => lineText "PMOV" [ptText ptd, ptText pts]
  | .pget vd pts c => lineText "PGET" [vText vd, ptText pts, coordText c]
  | .pput ptd vs c => lineText "PPUT" [ptText ptd, vText vs, coordText c]
  | .pisinf pts => lineText "PISINF" [ptText pts]
  | .ponc pts => lineText "PONC" [ptText pts]
  | .pdbl ptd pts => lineText "PDBL" [ptText ptd, ptText pts]
  | .padd ptd pts1 pts2 => lineText "PADD" [ptText ptd, ptText pts1, ptText pts2]
  | .paff ptd pts => lineText "PAFF" [ptText ptd, ptText pts]
  | .pmul ptd pts vk => lineText "PMUL" [ptText ptd, ptText pts, vText vk]

/-- The pseudo-instructions (30_encoding.md R103). -/
inductive Pseudo where
  | msqr (m : ModSel) (vd vs : VField)
  | mmul2 (m : ModSel) (vd vs : VField)
  | madd2 (m : ModSel) (vd vs : VField)
  | msub2 (m : ModSel) (vd vs : VField)
  | pdbl1 (ptd : PtField)
  | padd2 (ptd pts : PtField)
  | paff1 (ptd : PtField)
  | pchkord (ptd pts : PtField) (vq : VField)
deriving DecidableEq, Repr

/-- The commands a pseudo-instruction stands for (30_encoding.md R103). -/
def expandPseudo : Pseudo → List Instr
  | .msqr m vd vs => [.mmul m vd vs vs]
  | .mmul2 m vd vs => [.mmul m vd vd vs]
  | .madd2 m vd vs => [.madd m vd vd vs]
  | .msub2 m vd vs => [.msub m vd vd vs]
  | .pdbl1 ptd => [.pdbl ptd ptd]
  | .padd2 ptd pts => [.padd ptd ptd pts]
  | .paff1 ptd => [.paff ptd ptd]
  | .pchkord ptd pts vq => [.pmul ptd pts vq, .pisinf ptd]

end Sys2Proof.Machine
end

