-- ==== Sys2Proof/Machine/HostProgram.lean ====
section
/-! DEFINITION. The host program language of 30_encoding.md R104 and the end of a run
(70_reset_and_hazards.md R343): what a host does to MMEC line by line. The host is outside MMEC; its
lines act on the machine only through window accesses and the engine's turn. -/

namespace Sys2Proof.Machine

/-- The `STATUS` fields a conditional jump may test (30_encoding.md R104). -/
inductive HostFlag where
  | lt
  | eq
  | res
  | err
deriving DecidableEq, Repr

/-- One line of a host program (30_encoding.md R104). -/
inductive HostLine where
  | size (w : Width)
  | const (r : ConstReg) (x : Wide)
  | constN0p (x : Limb)
  | constN0q (x : Limb)
  | setV (i : VField) (x : Wide)
  | setPt (k : PtField) (c : CField) (x : Wide)
  | command (w : BitVec 32)
  | expect
  | label (name : String)
  | gotoIf (name : String) (f : HostFlag) (b : Nat)
  | goto (name : String)
deriving DecidableEq, Repr

/-- The index of a constant register in the address map (20_memory.md R67). -/
def constIndex : ConstReg → Nat
  | .p => 0
  | .r2p => 1
  | .a => 2
  | .b => 3
  | .q => 4
  | .r2q => 5

/-- The offset of limb 0 of `V[i]` (20_memory.md R67). -/
def vBase (i : VField) : Nat := 0x100 + 0x40 * i.toNat

/-- The offset of limb 0 of coordinate `c` of `PT[k]` (20_memory.md R67). -/
def ptBase (k : PtField) (c : CField) : Nat := 0x500 + 0xC0 * k.toNat + 0x40 * c.toNat

/-- The offset of limb 0 of a constant register (20_memory.md R67). -/
def constBase (r : ConstReg) : Nat := 0x800 + 0x40 * constIndex r

/-- The write of one 64-bit window word. -/
def writeAt (off : Nat) (x : Limb) : Event := .write (BitVec.ofNat 12 off) 8 x

/-- The 8 limb writes of a wide register (30_encoding.md R104). -/
def writeWide (base : Nat) (x : Wide) : List Event :=
  (List.range 8).map (fun j => writeAt (base + 8 * j) (getLimb x j))

/-- One read of `STATUS`. -/
def readStatus : Event := .read 0x010#12 8

/-- The accesses a line performs, with the engine's turn where the line waits for it
(30_encoding.md R104): a command line writes `CMD`, polls `STATUS` until the command is complete, and
clears DONE. -/
def lineEvents : HostLine → List Event
  | .size w => [writeAt 0x008 ((BitVec.ofBool (sizeBit w)).setWidth 64)]
  | .const r x => writeWide (constBase r) x
  | .constN0p x => [writeAt 0x020 x]
  | .constN0q x => [writeAt 0x028 x]
  | .setV i x => writeWide (vBase i) x
  | .setPt k c x => writeWide (ptBase k c) x
  | .command w => [writeAt 0x018 (w.setWidth 64), .engine, readStatus, writeAt 0x010 0x2#64]
  | .expect => []
  | .label _ => []
  | .gotoIf _ _ _ => [readStatus]
  | .goto _ => []

/-- Events served one after another. -/
def serveAll : List Event → State → Host.Outcome State Fault Refusal
  | [], s => .next s
  | e :: es, s =>
    match serveEvent e s with
    | .next t => serveAll es t
    | .fault r => .fault r
    | .refused r => .refused r

/-- A `STATUS` field as the host reads it out of the word (10_state.md R32). -/
def hostFlagValue (f : HostFlag) (w : Limb) : Nat :=
  match f with
  | .lt => (w.extractLsb' 8 1).toNat
  | .eq => (w.extractLsb' 9 1).toNat
  | .res => (w.extractLsb' 10 1).toNat
  | .err => (w.extractLsb' 4 4).toNat

/-- The word the host has read last. -/
def lastRead (s : State) : Limb :=
  match s.reply with
  | some (.data x _) => x
  | _ => 0

/-- The line a label names (30_encoding.md R104). Where two lines have the same label, which R104 does
not settle, a jump goes to the first of them in the program: DESIGN CHOICE (notes/assumptions/12.md). -/
def labelLine (prog : List HostLine) (name : String) : Option Nat :=
  prog.findIdx? (fun l => decide (l = .label name))

/-- A host program in progress: the next line and the machine. -/
structure HostRun where
  line : Nat
  machine : State
deriving DecidableEq, Repr

/-- The line after `l`, performed at line `n`, once its accesses have left the machine in `s`
(30_encoding.md R104). -/
def lineAfter (prog : List HostLine) (l : HostLine) (n : Nat) (s : State) : Option Nat :=
  match l with
  | .gotoIf name f b => if hostFlagValue f (lastRead s) = b then labelLine prog name else some (n + 1)
  | .goto name => labelLine prog name
  | _ => some (n + 1)

/-- One line performed; none after the last line, or where a jump names no label. -/
def hostLineStep (prog : List HostLine) (r : HostRun) : Option HostRun :=
  match prog[r.line]? with
  | none => none
  | some l =>
    match serveAll (lineEvents l) r.machine with
    | .next s => (lineAfter prog l r.line s).map (fun n => ⟨n, s⟩)
    | _ => none

/-- `k` lines performed, or fewer where the program ends first. -/
def hostRunFor (prog : List HostLine) : Nat → HostRun → HostRun
  | 0, r => r
  | k + 1, r =>
    match hostLineStep prog r with
    | some r' => hostRunFor prog k r'
    | none => r

/-- The end of a run (70_reset_and_hazards.md R343): the last line has been performed and no command
is pending. -/
def runEnded (prog : List HostLine) (r : HostRun) : Bool :=
  decide (prog.length ≤ r.line) && !r.machine.busy

end Sys2Proof.Machine
end

