-- ==== Sys2Proof/Safety.lean ====
section
/-! DEFINITION. The terms claims are stated in: what a command reads and writes, as the spec's tables
list it; when a command executes; what a register value stands for; the invariants of a state; and a
run whose accesses all took effect. -/

namespace Sys2Proof.Machine

/-! What a command reads and writes, in the words of 10_state.md R20, 43_point.md R200 and
60_exceptions.md R281. -/

/-- The V registers a command reads. -/
def sourceVs : Instr → List VField
  | .nop => []
  | .mov _ vs => [vs]
  | .icmp vs1 vs2 => [vs1, vs2]
  | .mmul _ _ vs1 vs2 => [vs1, vs2]
  | .madd _ _ vs1 vs2 => [vs1, vs2]
  | .msub _ _ vs1 vs2 => [vs1, vs2]
  | .mdbl _ _ vs => [vs]
  | .tomont _ _ vs => [vs]
  | .frommont _ _ vs => [vs]
  | .mexp _ _ vbase vexp => [vbase, vexp]
  | .minv _ _ vs => [vs]
  | .pinf _ => []
  | .pmov _ _ => []
  | .pget _ _ _ => []
  | .pput _ vs _ => [vs]
  | .pisinf _ => []
  | .ponc _ => []
  | .pdbl _ _ => []
  | .padd _ _ _ => []
  | .paff _ _ => []
  | .pmul _ _ vk => [vk]

/-- The point registers a command reads as points: all three coordinates are sources. -/
def sourcePts : Instr → List PtField
  | .pmov _ pts => [pts]
  | .pget _ pts _ => [pts]
  | .pisinf pts => [pts]
  | .ponc pts => [pts]
  | .pdbl _ pts => [pts]
  | .padd _ pts1 pts2 => [pts1, pts2]
  | .paff _ pts => [pts]
  | .pmul _ pts _ => [pts]
  | .nop | .mov _ _ | .icmp _ _ | .mmul _ _ _ _ | .madd _ _ _ _ | .msub _ _ _ _ | .mdbl _ _ _
  | .tomont _ _ _ | .frommont _ _ _ | .mexp _ _ _ _ | .minv _ _ _ | .pinf _ | .pput _ _ _ => []

/-- The modulus set a command uses, if any (30_encoding.md R94, 43_point.md R200). -/
def usedSet : Instr → Option ModSel
  | .mmul m _ _ _ => some m
  | .madd m _ _ _ => some m
  | .msub m _ _ _ => some m
  | .mdbl m _ _ => some m
  | .tomont m _ _ => some m
  | .frommont m _ _ => some m
  | .mexp m _ _ _ => some m
  | .minv m _ _ => some m
  | .ponc _ => some .p
  | .pdbl _ _ => some .p
  | .padd _ _ _ => some .p
  | .paff _ _ => some .p
  | .pmul _ _ _ => some .p
  | .nop | .mov _ _ | .icmp _ _ | .pinf _ | .pmov _ _ | .pget _ _ _ | .pput _ _ _ | .pisinf _ => none

/-- The 512-bit constants a command reads beside its modulus (60_exceptions.md R281). -/
def sourceConsts (i : Instr) (s : State) : List Wide :=
  match i with
  | .tomont m _ _ => [(s.modSet m).r2]
  | .ponc _ => [s.consts.a, s.consts.b]
  | .pdbl _ _ => [s.consts.a]
  | .padd _ _ _ => [s.consts.a]
  | .pmul _ _ _ => [s.consts.a]
  | .nop | .mov _ _ | .icmp _ _ | .mmul _ _ _ _ | .madd _ _ _ _ | .msub _ _ _ _ | .mdbl _ _ _
  | .frommont _ _ _ | .mexp _ _ _ _ | .minv _ _ _ | .pinf _ | .pmov _ _ | .pget _ _ _
  | .pput _ _ _ | .pisinf _ | .paff _ _ => []

/-- WIDE: every wide register a command reads (60_exceptions.md R281). -/
def wideReads (i : Instr) (s : State) : List Wide :=
  (sourceVs i).map s.readV ++ (sourcePts i).flatMap (fun k => (s.readPt k).coords)
    ++ ((usedSet i).map (fun m => (s.modSet m).m)).toList ++ sourceConsts i s

/-- REDUCED: the values a command requires to be below its modulus (41_modular.md R143, 43_point.md
R200, 60_exceptions.md R280). The scalar of PMUL, the exponent of MEXP and the operands of the two
conversions are not in it. -/
def reducedReads (i : Instr) (s : State) : List Wide :=
  match i with
  | .mmul _ _ vs1 vs2 => [s.readV vs1, s.readV vs2]
  | .madd _ _ vs1 vs2 => [s.readV vs1, s.readV vs2]
  | .msub _ _ vs1 vs2 => [s.readV vs1, s.readV vs2]
  | .mdbl _ _ vs => [s.readV vs]
  | .tomont m _ _ => [(s.modSet m).r2]
  | .mexp _ _ vbase _ => [s.readV vbase]
  | .minv _ _ vs => [s.readV vs]
  | .ponc pts => (s.readPt pts).coords ++ [s.consts.a, s.consts.b]
  | .pdbl _ pts => (s.readPt pts).coords ++ [s.consts.a]
  | .padd _ pts1 pts2 => (s.readPt pts1).coords ++ (s.readPt pts2).coords ++ [s.consts.a]
  | .paff _ pts => (s.readPt pts).coords
  | .pmul _ pts _ => (s.readPt pts).coords ++ [s.consts.a]
  | .nop | .mov _ _ | .icmp _ _ | .frommont _ _ _ | .pinf _ | .pmov _ _ | .pget _ _ _
  | .pput _ _ _ | .pisinf _ => []

/-- The V register a command writes, if any (10_state.md R20). -/
def destV : Instr → Option VField
  | .mov vd _ => some vd
  | .mmul _ vd _ _ => some vd
  | .madd _ vd _ _ => some vd
  | .msub _ vd _ _ => some vd
  | .mdbl _ vd _ => some vd
  | .tomont _ vd _ => some vd
  | .frommont _ vd _ => some vd
  | .mexp _ vd _ _ => some vd
  | .minv _ vd _ => some vd
  | .pget vd _ _ => some vd
  | .nop | .icmp _ _ | .pinf _ | .pmov _ _ | .pput _ _ _ | .pisinf _ | .ponc _ | .pdbl _ _
  | .padd _ _ _ | .paff _ _ | .pmul _ _ _ => none

/-- The point register a command writes, if any (10_state.md R20). -/
def destPt : Instr → Option PtField
  | .pinf ptd => some ptd
  | .pmov ptd _ => some ptd
  | .pput ptd _ _ => some ptd
  | .pdbl ptd _ => some ptd
  | .padd ptd _ _ => some ptd
  | .paff ptd _ => some ptd
  | .pmul ptd _ _ => some ptd
  | .nop | .mov _ _ | .icmp _ _ | .mmul _ _ _ _ | .madd _ _ _ _ | .msub _ _ _ _ | .mdbl _ _ _
  | .tomont _ _ _ | .frommont _ _ _ | .mexp _ _ _ _ | .minv _ _ _ | .pget _ _ _ | .pisinf _
  | .ponc _ => none

/-- `word(r, j)` as a value: limb `j` of a wide register (00_scope.md R9, R10). -/
def limbValue (r : Wide) (j : Nat) : Nat := r.toNat / 2 ^ (64 * j) % 2 ^ 64

/-! When a command executes (30_encoding.md R100): no check of `Validate` fails. -/

/-- The value of a wide register fits 256 bits: its limbs 4 to 7 are zero (10_state.md R23). -/
abbrev FitsNarrow (r : Wide) : Prop := r.toNat < 2 ^ 256

/-- No SIZE error: at 256 bits every wide register read fits (60_exceptions.md R281). -/
abbrev SizeHolds (i : Instr) (s : State) : Prop :=
  s.runWidth = .w256 → ∀ r ∈ wideReads i s, FitsNarrow r

/-- `ValidSet` (41_modular.md R142): `m` odd, at least 3, and `n0 · word(m, 0) ≡ −1 (mod 2^64)`. -/
abbrev SetIsValid (ms : ModSet) : Prop :=
  ms.m.toNat % 2 = 1 ∧ 3 ≤ ms.m.toNat
    ∧ ms.n0.toNat * (ms.m.toNat % 2 ^ 64) % 2 ^ 64 = 2 ^ 64 - 1

/-- No BAD_MODULUS error: the set a command uses, if any, is valid. -/
abbrev ModulusHolds (i : Instr) (s : State) : Prop :=
  ∀ m ∈ usedSet i, SetIsValid (s.modSet m)

/-- No UNREDUCED error: every value in REDUCED is below the modulus of the set in use. -/
abbrev ReducedHolds (i : Instr) (s : State) : Prop :=
  ∀ m ∈ usedSet i, ∀ x ∈ reducedReads i s, x.toNat < (s.modSet m).m.toNat

/-- The command passes every check of `Validate` on the state's registers (30_encoding.md R100). -/
abbrev CanExecute (i : Instr) (s : State) : Prop :=
  wellFormed i = true ∧ SizeHolds i s ∧ ModulusHolds i s ∧ ReducedHolds i s

/-! What register values stand for (00_scope.md R13). -/

/-- `ψ_m(x)`: the residue a Montgomery-form register value stands for, `x · 2^−W` modulo `m`. -/
def montValue (W m : Nat) (x : Wide) : ZMod m := (x.toNat : ZMod m) * ((2 : ZMod m) ^ W)⁻¹

/-- `ψ_p` for the running command's width and `CONST.P` (43_point.md R203). -/
def State.fieldValue (s : State) (x : Wide) : ZMod s.consts.p.toNat :=
  montValue s.runBits s.consts.p.toNat x

/-- The registers' values satisfy the curve equation on the residues they stand for
(43_point.md R214, R215). -/
def State.OnCurve (s : State) (P : Point) : Prop :=
  s.fieldValue P.y ^ 2 * s.fieldValue P.z =
    s.fieldValue P.x ^ 3 + s.fieldValue s.consts.a * s.fieldValue P.x * s.fieldValue P.z ^ 2
      + s.fieldValue s.consts.b * s.fieldValue P.z ^ 3

/-- Projective equality `P1 ≃ P2` of two point registers' values (43_point.md R204). -/
def State.ProjEq (s : State) (P Q : Point) : Prop :=
  (P.z = 0 ∧ Q.z = 0) ∨
    (P.z ≠ 0 ∧ Q.z ≠ 0 ∧
      s.fieldValue P.x * s.fieldValue Q.z = s.fieldValue Q.x * s.fieldValue P.z ∧
      s.fieldValue P.y * s.fieldValue Q.z = s.fieldValue Q.y * s.fieldValue P.z)

/-- `T` is the triple of `DblFormula` for `P` (43_point.md R218), read on the residues the registers
stand for (R203): reduced coordinates with the formula's values. -/
def State.IsDblFormula (s : State) (P T : Point) : Prop :=
  let X1 := s.fieldValue P.x
  let Y1 := s.fieldValue P.y
  let Z1 := s.fieldValue P.z
  let w := s.fieldValue s.consts.a * Z1 ^ 2 + 3 * X1 ^ 2
  let u := 2 * (Y1 * Z1)
  let R := Y1 * u
  let B := (X1 + R) ^ 2 - X1 ^ 2 - R ^ 2
  let h := w ^ 2 - 2 * B
  (∀ r ∈ T.coords, r.toNat < s.consts.p.toNat) ∧
    s.fieldValue T.x = h * u ∧
    s.fieldValue T.y = w * (B - h) - 2 * R ^ 2 ∧
    s.fieldValue T.z = u ^ 3

/-- `T` is the triple of `AddFormula` for `P` and `Q` (43_point.md R225), read on the residues the
registers stand for (R203): reduced coordinates with the formula's values. -/
def State.IsAddFormula (s : State) (P Q T : Point) : Prop :=
  let X1 := s.fieldValue P.x
  let Y1 := s.fieldValue P.y
  let Z1 := s.fieldValue P.z
  let X2 := s.fieldValue Q.x
  let Y2 := s.fieldValue Q.y
  let Z2 := s.fieldValue Q.z
  let u := Y2 * Z1 - Y1 * Z2
  let v := X2 * Z1 - X1 * Z2
  let R := v ^ 2 * (X1 * Z2)
  let A := u ^ 2 * (Z1 * Z2) - v ^ 3 - 2 * R
  (∀ r ∈ T.coords, r.toNat < s.consts.p.toNat) ∧
    s.fieldValue T.x = v * A ∧
    s.fieldValue T.y = u * (R - A) - v ^ 3 * (Y1 * Z2) ∧
    s.fieldValue T.z = v ^ 3 * (Z1 * Z2)

/-- The canonical infinity as a register value: the integers 0, 1, 0 (10_state.md R26). -/
def Point.infinity : Point := ⟨0, 1, 0⟩

/-- The swap form of the ladder (44_ladder.md R263), for the scalar bits `i − 1` down to 0. -/
def swapLoop (F : Field) (k : Nat) : Nat → Triple × Triple → Triple × Triple
  | 0, QR => QR
  | i + 1, QR =>
    let b := !k.testBit i
    let before := if b then QR.swap else QR
    let after := (pointAdd F before.1 before.2, pointDbl F before.2)
    swapLoop F k i (if b then after.swap else after)

/-! The invariants of a state and the premises of claims about a run. -/

/-- The combination `LT = 1, EQ = 1` does not occur (40_support.md R124). -/
abbrev State.FlagsExclusive (s : State) : Prop := ¬ (s.status.lt = true ∧ s.status.eq = true)

/-- While a command is pending, DONE and ERR are 0, as acceptance left them, and the pending word is
the one `CMD` reads back (10_state.md R36, R42). -/
abbrev State.PendingConsistent (s : State) : Prop :=
  ∀ c ∈ s.pending, c.word = s.cmdLast ∧ s.status.done = false ∧ s.status.err = .none

/-- What every step keeps. -/
abbrev State.Inv (s : State) : Prop := s.FlagsExclusive ∧ s.PendingConsistent

/-- Every host access has taken effect (70_reset_and_hazards.md R343): the premise of claims about an
end state that rely on it. -/
abbrev State.AllAccessesTook (s : State) : Prop := s.status.busErr = false ∧ s.status.ovr = false

/-- Two states hold the same data registers (10_state.md R44): V, PT, CONST, `N0P` and `N0Q`. -/
abbrev SameData (s t : State) : Prop :=
  t.v = s.v ∧ t.pt = s.pt ∧ t.consts = s.consts ∧ t.n0p = s.n0p ∧ t.n0q = s.n0q

end Sys2Proof.Machine
end

