-- ==== Sys2Proof/Certificates/Slice0/Obligations.lean ====
section
/-! DEFINITION. The statements for the provers, in the order of the spec: the encoding, the step and
the completion, the checks and the frames, the result of each command, the whole-machine rules, and
the register window. -/

open Sys2Proof Sys2Proof.Machine

/-! ### The encoding (30_encoding.md) -/

/-- 30_encoding.md R95: one word of each row of the opcode map, with the words and the operands that
95_test_vectors.md writes out, decodes to its command; two rows with the set `q` among them. -/
def Obligations.WrittenOutWordsDecode : Prop :=
  decode 0x0000000000000000#64 = .ok .nop ∧
  decode 0x0000000004003100#64 = .ok (.mov 3#4 1#4) ∧
  decode 0x0000000008000120#64 = .ok (.icmp 1#4 2#4) ∧
  decode 0x0000000020003120#64 = .ok (.mmul .p 3#4 1#4 2#4) ∧
  decode 0x0000000022003120#64 = .ok (.mmul .q 3#4 1#4 2#4) ∧
  decode 0x0000000024003120#64 = .ok (.madd .p 3#4 1#4 2#4) ∧
  decode 0x0000000028003120#64 = .ok (.msub .p 3#4 1#4 2#4) ∧
  decode 0x000000002C003100#64 = .ok (.mdbl .p 3#4 1#4) ∧
  decode 0x0000000030003100#64 = .ok (.tomont .p 3#4 1#4) ∧
  decode 0x0000000034003100#64 = .ok (.frommont .p 3#4 1#4) ∧
  decode 0x0000000038003120#64 = .ok (.mexp .p 3#4 1#4 2#4) ∧
  decode 0x000000003C003100#64 = .ok (.minv .p 3#4 1#4) ∧
  decode 0x000000003E003100#64 = .ok (.minv .q 3#4 1#4) ∧
  decode 0x0000000040002000#64 = .ok (.pinf 2#4) ∧
  decode 0x0000000044000100#64 = .ok (.pmov 0#4 1#4) ∧
  decode 0x0000000048005110#64 = .ok (.pget 5#4 1#4 1#4) ∧
  decode 0x000000004C000220#64 = .ok (.pput 0#4 2#4 2#4) ∧
  decode 0x0000000050000100#64 = .ok (.pisinf 1#4) ∧
  decode 0x0000000054000100#64 = .ok (.ponc 1#4) ∧
  decode 0x0000000058000100#64 = .ok (.pdbl 0#4 1#4) ∧
  decode 0x000000005C000120#64 = .ok (.padd 0#4 1#4 2#4) ∧
  decode 0x0000000060000100#64 = .ok (.paff 0#4 1#4) ∧
  decode 0x0000000064000140#64 = .ok (.pmul 0#4 1#4 4#4)

/-- 30_encoding.md R95, R102: decoding the word of a command with legal operand fields gives that
command back, every operand at every value. -/
def Obligations.DecodeOfEncodeIsTheCommand : Prop :=
  ∀ i : Instr, wellFormed i = true → decode (cmdValue i) = .ok i

/-- 30_encoding.md R95, R97, R102: a value that decodes to a command has legal operand fields and is
the one word of that command. -/
def Obligations.AcceptedWordsEncodeBack : Prop :=
  ∀ (w : Limb) (i : Instr), decode w = .ok i → wellFormed i = true ∧ cmdValue i = w

/-- 30_encoding.md R96: a reserved opcode completes with ILLEGAL_OPCODE, which `STATUS.ERR` shows as
code 1, and no other effect, and the all-zero word is NOP. -/
def Obligations.ReservedOpcodesFail : Prop :=
  (∀ (w : Limb) (s : State),
    (3 ≤ w.toNat / 2 ^ 26 % 64 ∧ w.toNat / 2 ^ 26 % 64 ≤ 7 ∨ 0x1A ≤ w.toNat / 2 ^ 26 % 64) →
      ∃ t, completeWord w s = .next t ∧
        t = { s with status := { s.status with err := .illegalOpcode, done := true },
                     pending := none } ∧
        t.statusWord.extractLsb' 4 4 = 1#4) ∧
  decode 0#64 = .ok .nop

/-- 30_encoding.md R97: a value with a defined opcode completes with RESERVED_FIELD, which `STATUS.ERR`
shows as code 2, and no other effect when one of the conditions holds, and decodes to a command when none does. -/
def Obligations.ReservedFieldsFail : Prop :=
  ∀ (w : Limb) (s : State),
    let op := w.toNat / 2 ^ 26 % 64
    let rd := w.toNat / 2 ^ 12 % 16
    let rs1 := w.toNat / 2 ^ 8 % 16
    let rs2 := w.toNat / 2 ^ 4 % 16
    let bad : Prop :=
      w.toNat / 2 ^ 32 ≠ 0 ∨ w.toNat / 2 ^ 16 % 512 ≠ 0 ∨ w.toNat % 16 ≠ 0 ∨
      ((op ≤ 2 ∨ 0x10 ≤ op) ∧ w.toNat / 2 ^ 25 % 2 = 1) ∨
      (op ∈ [0x00, 0x02, 0x14, 0x15] ∧ rd ≠ 0) ∨
      (op ∈ [0x00, 0x10] ∧ rs1 ≠ 0) ∨
      (op ∈ [0x00, 0x01, 0x0B, 0x0C, 0x0D, 0x0F, 0x10, 0x11, 0x14, 0x15, 0x16, 0x18] ∧ rs2 ≠ 0) ∨
      (op ∈ [0x10, 0x11, 0x13, 0x16, 0x17, 0x18, 0x19] ∧ 3 < rd) ∨
      (op ∈ [0x11, 0x12, 0x14, 0x15, 0x16, 0x17, 0x18, 0x19] ∧ 3 < rs1) ∨
      (op ∈ [0x17] ∧ 3 < rs2) ∨
      (op ∈ [0x12, 0x13] ∧ 2 < rs2)
    (op ≤ 2 ∨ (8 ≤ op ∧ op ≤ 0x19)) →
      (bad → ∃ t, completeWord w s = .next t ∧
        t = { s with status := { s.status with err := .reservedField, done := true },
                     pending := none } ∧
        t.statusWord.extractLsb' 4 4 = 2#4) ∧
      (¬ bad → ∃ i, decode w = .ok i)

/-! ### The step and the completion (10_state.md R43, 70_reset_and_hazards.md) -/

/-- 10_state.md R43, 20_memory.md R71, 60_exceptions.md R308: when it is the engine's turn (an empty
inbox, or an engine slot at its head) and the pending value decodes to a command, the step is the
completion of that command; a rejected value completes with its error code; with nothing pending the
engine's turn changes nothing; any other event at the head is taken out and served; and a placed word
runs on the very next step. That the machine's schedule is data in `inbox`, and how a word is placed,
are the model's choices (notes/assumptions/1.md, 7.md). -/
def Obligations.StepCompletesThePendingCommand : Prop :=
  (∀ (s : State) (c : Pending) (i : Instr),
    s.pending = some c → decode c.word = .ok i →
      (s.inbox = [] → step s = exec i s) ∧
      (∀ rest, s.inbox = .engine :: rest → step s = exec i { s with inbox := rest })) ∧
  (∀ (s : State) (c : Pending) (e : DecodeError),
    s.pending = some c → decode c.word = .error e → s.inbox = [] →
      step s = .next { s with status := { s.status with err := decodeErrorCode e, done := true },
                              pending := none }) ∧
  (∀ s : State, s.pending = none →
    serveEvent .engine s = .next s ∧ (s.inbox = [] → step s = .next s)) ∧
  (∀ (s : State) (e : Event) (rest : List Event),
    s.inbox = e :: rest → step s = serveEvent e { s with inbox := rest }) ∧
  (∀ (s : State) (i : Instr) (n w : Nat),
    decode (tableWord n w) = .ok i →
      step (s.withFetchWord n w) = exec i (s.accept (tableWord n w)))

/-- 93_implementation_defined.md section 3, 60_exceptions.md R286: no step stops; whatever the state,
it answers a next state. -/
def Obligations.EveryStepAnswersANextState : Prop :=
  ∀ s : State, ∃ t, step s = .next t

/-- 70_reset_and_hazards.md R341: whatever is pending and whatever is still to come, after as many
steps as there are events and one more, every event has been served and no command is pending. The
schedule in `inbox` is the model's choice (notes/assumptions/1.md). -/
def Obligations.AcceptedCommandsComplete : Prop :=
  ∀ s : State, ∃ t,
    Host.Core.run Sys2Proof.core (s.inbox.length + 1) s = .next t ∧
      t.inbox = [] ∧ t.pending = none

/-- 70_reset_and_hazards.md R330, R331: the register values after reset, read through the window and
directly, and both resets leave every register of any state at those values. That a reset keeps
`inbox` and `reply`, which are no registers, is the model's choice (notes/assumptions/1.md, 2.md). -/
def Obligations.ResetLeavesEveryRegisterAtItsValue : Prop :=
  (∀ f, State.reset.readV f = 0) ∧
  (∀ k, State.reset.readPt k = ⟨0, 0, 0⟩) ∧
  State.reset.consts = ⟨0, 0, 0, 0, 0, 0⟩ ∧ State.reset.n0p = 0 ∧ State.reset.n0q = 0 ∧
  State.reset.windowWord .id = 0x000000014D4D4543#64 ∧
  State.reset.ctrlWord = 0 ∧ State.reset.statusWord = 0 ∧ State.reset.cmdLast = 0 ∧
  State.reset.pending = none ∧ State.reset.irq = false ∧
  (∀ s : State,
    serveEvent .hardReset s = .next { State.reset with inbox := s.inbox, reply := s.reply }) ∧
  (∀ (s : State) (x : Limb), x.getLsbD 2 = true →
    serveEvent (.write 0x008#12 8 x) s =
      .next { State.reset with inbox := s.inbox, reply := some (.written false) })

/-- 40_support.md R124, 10_state.md R36, R42: LT and EQ are never both 1, and while a command is
pending DONE and ERR are 0 and the pending word is the one `CMD` reads back: every step keeps this,
from every state that meets it. -/
def Obligations.StepKeepsTheInvariant : Prop :=
  ∀ s t : State, s.Inv → step s = .next t → t.Inv

/-- The reset state meets the invariant that every step keeps. -/
def Obligations.ResetMeetsTheInvariant : Prop :=
  State.reset.Inv

/-- 10_state.md R43, R45, 60_exceptions.md R290: in every state IRQ is 1 exactly when CTRL.IE and
STATUS.DONE are both 1; and a completion clears BUSY, sets DONE, and so raises IRQ exactly when
CTRL.IE is 1. -/
def Obligations.CompletionSetsDoneAndRaisesIrq : Prop :=
  (∀ s : State, s.irq = true ↔ s.ctrl.ie = true ∧ s.status.done = true) ∧
  (∀ (w : Limb) (s : State), ∃ t, completeWord w s = .next t ∧
    t.pending = none ∧ t.busy = false ∧ t.status.done = true ∧ t.irq = s.ctrl.ie)

/-! ### The checks and the frames (30_encoding.md R100, 60_exceptions.md R280 to R284) -/

/-- 60_exceptions.md R284: a command that ends with an error changes nothing but ERR, DONE and
PENDING, and with it BUSY and IRQ. -/
def Obligations.ErrorsHaveNoOtherEffect : Prop :=
  ∀ (w : Limb) (s t : State), completeWord w s = .next t → t.status.err ≠ .none →
    t = { s with status := { s.status with err := t.status.err, done := true }, pending := none }

/-- 30_encoding.md R100, 60_exceptions.md R282: the code of a decoded command is that of the first
check that fails, in the order RESERVED_FIELD, SIZE, BAD_MODULUS, UNREDUCED, and 0 when none does,
over the registers that 60_exceptions.md R280 and R281 list. -/
def Obligations.ErrorCodeIsTheFirstFailedCheck : Prop :=
  ∀ (i : Instr) (s : State), ∃ t, exec i s = .next t ∧
    (wellFormed i = false → t.status.err = .reservedField) ∧
    (wellFormed i = true → ¬ SizeHolds i s → t.status.err = .size) ∧
    (wellFormed i = true → SizeHolds i s → ¬ ModulusHolds i s → t.status.err = .badModulus) ∧
    (wellFormed i = true → SizeHolds i s → ModulusHolds i s → ¬ ReducedHolds i s →
      t.status.err = .unreduced) ∧
    (CanExecute i s → t.status.err = .none)

/-- 10_state.md R20, R27: a command changes no V or PT register but its destination, no constant
register, no CTRL field, no sticky bit and no CMD_LAST, nor the model's own `inbox` and `reply`
(notes/assumptions/1.md, 2.md). -/
def Obligations.CommandsWriteOnlyTheirDestination : Prop :=
  ∀ (i : Instr) (s t : State), exec i s = .next t →
    (∀ f, destV i ≠ some f → t.readV f = s.readV f) ∧
    (∀ k, (∀ d ∈ destPt i, ptIndex k ≠ ptIndex d) → t.readPt k = s.readPt k) ∧
    t.consts = s.consts ∧ t.n0p = s.n0p ∧ t.n0q = s.n0q ∧ t.ctrl = s.ctrl ∧
    t.cmdLast = s.cmdLast ∧ t.status.ovr = s.status.ovr ∧ t.status.busErr = s.status.busErr ∧
    t.inbox = s.inbox ∧ t.reply = s.reply

/-- 10_state.md R34: LT and EQ are written only by ICMP and RES only by PISINF and PONC, and none of
them by a command that ends with an error. -/
def Obligations.OnlyTheFlagCommandsWriteFlags : Prop :=
  ∀ (i : Instr) (s t : State), exec i s = .next t →
    ((∀ a b, i ≠ .icmp a b) → t.status.lt = s.status.lt ∧ t.status.eq = s.status.eq) ∧
    ((∀ k, i ≠ .pisinf k) → (∀ k, i ≠ .ponc k) → t.status.res = s.status.res) ∧
    (t.status.err ≠ .none →
      t.status.lt = s.status.lt ∧ t.status.eq = s.status.eq ∧ t.status.res = s.status.res)

/-- 00_scope.md R11, 10_state.md R23: at 256 bits every V register and every coordinate a command writes
has zero limbs 4 to 7: all three coordinates of a destination point, but for PPUT, which writes the
selected one only. -/
def Obligations.NarrowResultsAreZeroExtended : Prop :=
  ∀ (i : Instr) (s t : State), s.runWidth = .w256 → exec i s = .next t → t.status.err = .none →
    (∀ d ∈ destV i, FitsNarrow (t.readV d)) ∧
    ((∀ a b c, i ≠ .pput a b c) → ∀ d ∈ destPt i, ∀ r ∈ (t.readPt d).coords, FitsNarrow r) ∧
    (∀ ptd vs c, i = .pput ptd vs c →
      (c = 0#4 → FitsNarrow (t.readPt ptd).x) ∧
      (c = 1#4 → FitsNarrow (t.readPt ptd).y) ∧
      (c = 2#4 → FitsNarrow (t.readPt ptd).z))

/-! ### The support family (40_support.md) -/

/-- 40_support.md R121: NOP completes and changes nothing but the handshake. -/
def Obligations.NopOnlyCompletes : Prop :=
  ∀ s : State, exec .nop s =
    .next { s with status := { s.status with err := .none, done := true }, pending := none }

/-- 40_support.md R123: MOV copies the whole register, at either width and with any aliasing. -/
def Obligations.MovCopiesTheRegister : Prop :=
  ∀ (vd vs : VField) (s : State), CanExecute (.mov vd vs) s →
    ∃ t, exec (.mov vd vs) s = .next t ∧ t.status.err = .none ∧ t.readV vd = s.readV vs

/-- 40_support.md R124, R125: ICMP's flags are the unsigned order of the two registers. -/
def Obligations.IcmpComparesUnsigned : Prop :=
  ∀ (vs1 vs2 : VField) (s : State), CanExecute (.icmp vs1 vs2) s →
    ∃ t, exec (.icmp vs1 vs2) s = .next t ∧ t.status.err = .none ∧
      (t.status.lt = true ↔ (s.readV vs1).toNat < (s.readV vs2).toNat) ∧
      (t.status.eq = true ↔ s.readV vs1 = s.readV vs2) ∧
      t.status.res = s.status.res

/-! ### The modular family (41_modular.md) -/

/-- 41_modular.md R141, R146: MMUL leaves the canonical residue `r` with `r · 2^W ≡ x · y`, on either
modulus set and at either width. -/
def Obligations.MmulIsTheMontgomeryProduct : Prop :=
  ∀ (m : ModSel) (vd vs1 vs2 : VField) (s : State), CanExecute (.mmul m vd vs1 vs2) s →
    ∃ t, exec (.mmul m vd vs1 vs2) s = .next t ∧ t.status.err = .none ∧
      (t.readV vd).toNat < (s.modSet m).m.toNat ∧
      (t.readV vd).toNat * 2 ^ s.runBits ≡ (s.readV vs1).toNat * (s.readV vs2).toNat
        [MOD (s.modSet m).m.toNat]

/-- 41_modular.md R161, R162: MADD leaves `(x + y) mod m`. -/
def Obligations.MaddIsTheModularSum : Prop :=
  ∀ (m : ModSel) (vd vs1 vs2 : VField) (s : State), CanExecute (.madd m vd vs1 vs2) s →
    ∃ t, exec (.madd m vd vs1 vs2) s = .next t ∧ t.status.err = .none ∧
      (t.readV vd).toNat =
        ((s.readV vs1).toNat + (s.readV vs2).toNat) % (s.modSet m).m.toNat

/-- 41_modular.md R165, 00_scope.md R10: MSUB leaves `(x − y) mod m`, the residue from 0 to `m − 1`
also where `x < y`. -/
def Obligations.MsubIsTheModularDifference : Prop :=
  ∀ (m : ModSel) (vd vs1 vs2 : VField) (s : State), CanExecute (.msub m vd vs1 vs2) s →
    ∃ t, exec (.msub m vd vs1 vs2) s = .next t ∧ t.status.err = .none ∧
      ((t.readV vd).toNat : Int) =
        ((s.readV vs1).toNat - (s.readV vs2).toNat : Int) % ((s.modSet m).m.toNat : Int)

/-- 41_modular.md R169: MDBL leaves `2x mod m`. -/
def Obligations.MdblIsTheModularDouble : Prop :=
  ∀ (m : ModSel) (vd vs : VField) (s : State), CanExecute (.mdbl m vd vs) s →
    ∃ t, exec (.mdbl m vd vs) s = .next t ∧ t.status.err = .none ∧
      (t.readV vd).toNat = 2 * (s.readV vs).toNat % (s.modSet m).m.toNat

/-- 41_modular.md R170: MDBL of a register and MADD of it with itself do the same to every state, the
errors included. -/
def Obligations.MdblAgreesWithMadd : Prop :=
  ∀ (m : ModSel) (vd vs : VField) (s : State), exec (.mdbl m vd vs) s = exec (.madd m vd vs vs) s

/-- 41_modular.md R150: TOMONT leaves the canonical residue `r` with `r · 2^W ≡ x · r2` for any W-bit
`x`, and `x · 2^W mod m` where `r2` is `2^(2W) mod m`. -/
def Obligations.TomontEntersMontgomeryForm : Prop :=
  ∀ (m : ModSel) (vd vs : VField) (s : State), CanExecute (.tomont m vd vs) s →
    ∃ t, exec (.tomont m vd vs) s = .next t ∧ t.status.err = .none ∧
      (t.readV vd).toNat < (s.modSet m).m.toNat ∧
      (t.readV vd).toNat * 2 ^ s.runBits ≡ (s.readV vs).toNat * (s.modSet m).r2.toNat
        [MOD (s.modSet m).m.toNat] ∧
      ((s.modSet m).r2.toNat = 2 ^ (2 * s.runBits) % (s.modSet m).m.toNat →
        (t.readV vd).toNat = (s.readV vs).toNat * 2 ^ s.runBits % (s.modSet m).m.toNat)

/-- 41_modular.md R153, R154: FROMMONT leaves the canonical residue `r` with `r · 2^W ≡ x` for any
W-bit `x`. -/
def Obligations.FrommontLeavesMontgomeryForm : Prop :=
  ∀ (m : ModSel) (vd vs : VField) (s : State), CanExecute (.frommont m vd vs) s →
    ∃ t, exec (.frommont m vd vs) s = .next t ∧ t.status.err = .none ∧
      (t.readV vd).toNat < (s.modSet m).m.toNat ∧
      (t.readV vd).toNat * 2 ^ s.runBits ≡ (s.readV vs).toNat [MOD (s.modSet m).m.toNat]

/-- 41_modular.md R153: with the right `r2`, TOMONT and then FROMMONT, accepted at the same width,
give back `x mod m`. -/
def Obligations.FrommontUndoesTomont : Prop :=
  ∀ (m : ModSel) (vd vs ve : VField) (s t : State), CanExecute (.tomont m vd vs) s →
    s.runWidth = s.ctrl.size →
    (s.modSet m).r2.toNat = 2 ^ (2 * s.runBits) % (s.modSet m).m.toNat →
    exec (.tomont m vd vs) s = .next t →
    ∃ u, exec (.frommont m ve vd) (t.accept (cmdValue (.frommont m ve vd))) = .next u ∧
      u.status.err = .none ∧
      (u.readV ve).toNat = (s.readV vs).toNat % (s.modSet m).m.toNat

/-- 41_modular.md R144, R145: on a valid modulus set and in the range the commands use, the
multiply-reduce algorithm of R144 gives the Montgomery product, at either width. -/
def Obligations.ReductionAlgorithmGivesTheProduct : Prop :=
  ∀ (w : Width) (ms : ModSet) (x y : Nat), SetIsValid ms → x * y < 2 ^ w.bits * ms.m.toNat →
    montMulAlg x y ms.m.toNat ms.n0.toNat w.limbs = montMul w.bits ms.m.toNat x y

/-! ### The exponentiation family (42_modexp.md) -/

/-- 42_modexp.md R184: MEXP leaves the reduced Montgomery form of the power of the residue its base
stands for, for every W-bit exponent. -/
def Obligations.MexpIsTheModularPower : Prop :=
  ∀ (m : ModSel) (vd vbase vexp : VField) (s : State), CanExecute (.mexp m vd vbase vexp) s →
    ∃ t, exec (.mexp m vd vbase vexp) s = .next t ∧ t.status.err = .none ∧
      (t.readV vd).toNat < (s.modSet m).m.toNat ∧
      montValue s.runBits (s.modSet m).m.toNat (t.readV vd) =
        montValue s.runBits (s.modSet m).m.toNat (s.readV vbase) ^ (s.readV vexp).toNat

/-- 42_modexp.md R187, R189: MINV leaves the reduced Montgomery form of the power `m − 2`; 0 for 0;
and for a prime modulus and a nonzero operand the inverse. -/
def Obligations.MinvIsTheFermatInverse : Prop :=
  ∀ (m : ModSel) (vd vs : VField) (s : State), CanExecute (.minv m vd vs) s →
    ∃ t, exec (.minv m vd vs) s = .next t ∧ t.status.err = .none ∧
      (t.readV vd).toNat < (s.modSet m).m.toNat ∧
      montValue s.runBits (s.modSet m).m.toNat (t.readV vd) =
        montValue s.runBits (s.modSet m).m.toNat (s.readV vs) ^ ((s.modSet m).m.toNat - 2) ∧
      (s.readV vs = 0 → t.readV vd = 0) ∧
      ((s.modSet m).m.toNat.Prime → s.readV vs ≠ 0 →
        montValue s.runBits (s.modSet m).m.toNat (s.readV vs) *
          montValue s.runBits (s.modSet m).m.toNat (t.readV vd) = 1)

/-! ### The point family (43_point.md) -/

/-- 43_point.md R206: PINF writes the integers 0, 1, 0. -/
def Obligations.PinfWritesCanonicalInfinity : Prop :=
  ∀ (ptd : PtField) (s : State), CanExecute (.pinf ptd) s →
    ∃ t, exec (.pinf ptd) s = .next t ∧ t.status.err = .none ∧ t.readPt ptd = ⟨0, 1, 0⟩

/-- 43_point.md R208: PMOV copies all three coordinates. -/
def Obligations.PmovCopiesThePoint : Prop :=
  ∀ (ptd pts : PtField) (s : State), CanExecute (.pmov ptd pts) s →
    ∃ t, exec (.pmov ptd pts) s = .next t ∧ t.status.err = .none ∧ t.readPt ptd = s.readPt pts

/-- 43_point.md R210: PGET copies the coordinate its selector names. -/
def Obligations.PgetCopiesOneCoordinate : Prop :=
  ∀ (vd : VField) (pts : PtField) (c : CField) (s : State), CanExecute (.pget vd pts c) s →
    ∃ t, exec (.pget vd pts c) s = .next t ∧ t.status.err = .none ∧
      (c = 0#4 → t.readV vd = (s.readPt pts).x) ∧
      (c = 1#4 → t.readV vd = (s.readPt pts).y) ∧
      (c = 2#4 → t.readV vd = (s.readPt pts).z)

/-- 43_point.md R211: PPUT writes the coordinate its selector names and leaves the other two. -/
def Obligations.PputWritesOneCoordinate : Prop :=
  ∀ (ptd : PtField) (vs : VField) (c : CField) (s : State), CanExecute (.pput ptd vs c) s →
    ∃ t, exec (.pput ptd vs c) s = .next t ∧ t.status.err = .none ∧
      (c = 0#4 → t.readPt ptd = { s.readPt ptd with x := s.readV vs }) ∧
      (c = 1#4 → t.readPt ptd = { s.readPt ptd with y := s.readV vs }) ∧
      (c = 2#4 → t.readPt ptd = { s.readPt ptd with z := s.readV vs })

/-- 43_point.md R212: PISINF's RES is 1 exactly when Z is 0, whatever X and Y; LT and EQ stay. -/
def Obligations.PisinfTestsZ : Prop :=
  ∀ (pts : PtField) (s : State), CanExecute (.pisinf pts) s →
    ∃ t, exec (.pisinf pts) s = .next t ∧ t.status.err = .none ∧
      (t.status.res = true ↔ (s.readPt pts).z = 0) ∧
      t.status.lt = s.status.lt ∧ t.status.eq = s.status.eq

/-- 43_point.md R214, R215: PONC's RES is 1 exactly when the residues the coordinates stand for
satisfy `Y²Z = X³ + aXZ² + bZ³`; LT and EQ stay. -/
def Obligations.PoncTestsTheCurveEquation : Prop :=
  ∀ (pts : PtField) (s : State), CanExecute (.ponc pts) s →
    ∃ t, exec (.ponc pts) s = .next t ∧ t.status.err = .none ∧
      (t.status.res = true ↔ s.OnCurve (s.readPt pts)) ∧
      t.status.lt = s.status.lt ∧ t.status.eq = s.status.eq

/-- 43_point.md R217, R218: PDBL copies a point with Z = 0, answers the canonical infinity for Y = 0,
and else follows DblFormula on the residues the registers stand for. The formula clause rests on the
model's choice of `POINT_REPR` = `exact` and on the spec's own text of the formula
(notes/assumptions/5.md, 14.md). -/
def Obligations.PdblFollowsTheDoublingFormulas : Prop :=
  ∀ (ptd pts : PtField) (s : State), CanExecute (.pdbl ptd pts) s →
    ∃ t, exec (.pdbl ptd pts) s = .next t ∧ t.status.err = .none ∧
      ((s.readPt pts).z = 0 → t.readPt ptd = s.readPt pts) ∧
      ((s.readPt pts).z ≠ 0 → (s.readPt pts).y = 0 → t.readPt ptd = Point.infinity) ∧
      ((s.readPt pts).z ≠ 0 → (s.readPt pts).y ≠ 0 →
        s.IsDblFormula (s.readPt pts) (t.readPt ptd))

/-- 43_point.md R224, R225: PADD's cases in their order (the second point infinity, the first point
infinity, inverse points, equal points with their own Y = 0 case) and AddFormula in the general
case, on the residues the registers stand for. The formula clauses rest on the model's choice of
`POINT_REPR` = `exact` and on the spec's own text of the formulas (notes/assumptions/5.md, 14.md). -/
def Obligations.PaddFollowsTheAdditionFormulas : Prop :=
  ∀ (ptd pts1 pts2 : PtField) (s : State), CanExecute (.padd ptd pts1 pts2) s →
    let P := s.readPt pts1
    let Q := s.readPt pts2
    let sameX := s.fieldValue P.x * s.fieldValue Q.z = s.fieldValue Q.x * s.fieldValue P.z
    let sameY := s.fieldValue P.y * s.fieldValue Q.z = s.fieldValue Q.y * s.fieldValue P.z
    ∃ t, exec (.padd ptd pts1 pts2) s = .next t ∧ t.status.err = .none ∧
      (Q.z = 0 → t.readPt ptd = P) ∧
      (Q.z ≠ 0 → P.z = 0 → t.readPt ptd = Q) ∧
      (Q.z ≠ 0 → P.z ≠ 0 → sameX → ¬ sameY → t.readPt ptd = Point.infinity) ∧
      (Q.z ≠ 0 → P.z ≠ 0 → sameX → sameY → P.y = 0 → t.readPt ptd = Point.infinity) ∧
      (Q.z ≠ 0 → P.z ≠ 0 → sameX → sameY → P.y ≠ 0 → s.IsDblFormula P (t.readPt ptd)) ∧
      (Q.z ≠ 0 → P.z ≠ 0 → ¬ sameX → s.IsAddFormula P Q (t.readPt ptd))

/-- 43_point.md R220: PADD of two registers that hold the same triple does to every state what PDBL of
the first does, the errors included; and PADD of projectively equal finite points writes the triple
that PDBL of the first writes. -/
def Obligations.PaddOfEqualPointsIsPdbl : Prop :=
  (∀ (ptd pts1 pts2 : PtField) (s : State), ptFieldOk pts2 = ptFieldOk pts1 →
    s.readPt pts1 = s.readPt pts2 → exec (.padd ptd pts1 pts2) s = exec (.pdbl ptd pts1) s) ∧
  (∀ (ptd pts1 pts2 : PtField) (s t u : State), CanExecute (.padd ptd pts1 pts2) s →
    s.ProjEq (s.readPt pts1) (s.readPt pts2) →
    exec (.padd ptd pts1 pts2) s = .next t → exec (.pdbl ptd pts1) s = .next u →
    t.readPt ptd = u.readPt ptd)

/-- 43_point.md R226: over a prime `p`, PADD of two points in either order gives projectively equal
results, on or off the curve. -/
def Obligations.PaddCommutesProjectively : Prop :=
  ∀ (ptd pts1 pts2 : PtField) (s : State), CanExecute (.padd ptd pts1 pts2) s →
    s.consts.p.toNat.Prime →
    ∃ t u, exec (.padd ptd pts1 pts2) s = .next t ∧ exec (.padd ptd pts2 pts1) s = .next u ∧
      s.ProjEq (t.readPt ptd) (u.readPt ptd)

/-- 43_point.md R230, R231: PAFF answers the canonical infinity for Z = 0; else Z becomes ONE_p and
X, Y are scaled by the power `p − 2` of Z; and over a prime `p` the result is projectively equal to
the source. -/
def Obligations.PaffReducesToAffineForm : Prop :=
  ∀ (ptd pts : PtField) (s : State), CanExecute (.paff ptd pts) s →
    let P := s.readPt pts
    let p := s.consts.p.toNat
    ∃ t, exec (.paff ptd pts) s = .next t ∧ t.status.err = .none ∧
      (P.z = 0 → t.readPt ptd = Point.infinity) ∧
      (P.z ≠ 0 →
        (∀ r ∈ (t.readPt ptd).coords, r.toNat < p) ∧
        (t.readPt ptd).z.toNat = 2 ^ s.runBits % p ∧
        s.fieldValue (t.readPt ptd).x = s.fieldValue P.x * s.fieldValue P.z ^ (p - 2) ∧
        s.fieldValue (t.readPt ptd).y = s.fieldValue P.y * s.fieldValue P.z ^ (p - 2)) ∧
      (p.Prime → s.ProjEq (t.readPt ptd) P)

/-! ### The ladder (44_ladder.md) -/

/-- 44_ladder.md R262, R263: PMUL writes the first point of the swap form of the ladder, run for the
W bits of the scalar from infinity and the source point. The exact triple rests on the model's choice
of `POINT_REPR` = `exact` (notes/assumptions/5.md). -/
def Obligations.PmulIsTheSwapLadder : Prop :=
  ∀ (ptd pts : PtField) (vk : VField) (s : State), CanExecute (.pmul ptd pts vk) s →
    ∃ t, exec (.pmul ptd pts vk) s = .next t ∧ t.status.err = .none ∧
      t.readPt ptd =
        (swapLoop s.field (s.readV vk).toNat s.runBits
          (infinity, (s.readPt pts).triple)).1.point

/-- 44_ladder.md R265: the scalar 0 gives exactly the canonical infinity, and the scalar 1 gives a
finite source point bit for bit. -/
def Obligations.PmulByZeroAndOne : Prop :=
  ∀ (ptd pts : PtField) (vk : VField) (s : State), CanExecute (.pmul ptd pts vk) s →
    ∃ t, exec (.pmul ptd pts vk) s = .next t ∧ t.status.err = .none ∧
      (s.readV vk = 0 → t.readPt ptd = Point.infinity) ∧
      (s.readV vk = 1 → (s.readPt pts).z ≠ 0 → t.readPt ptd = s.readPt pts)

/-- 44_ladder.md R265: over a prime `p`, a PMUL result that is infinity is exactly the canonical one,
whatever the source point and the scalar. -/
def Obligations.PmulInfinityIsCanonical : Prop :=
  ∀ (ptd pts : PtField) (vk : VField) (s t : State), CanExecute (.pmul ptd pts vk) s →
    s.consts.p.toNat.Prime → exec (.pmul ptd pts vk) s = .next t →
    (t.readPt ptd).z = 0 → t.readPt ptd = Point.infinity

/-! ### The curve (43_point.md R218, R225) -/

/-- 43_point.md R218: over a prime `p`, the double of a point on the curve is on the curve. -/
def Obligations.PdblStaysOnTheCurve : Prop :=
  ∀ (ptd pts : PtField) (s t : State), CanExecute (.pdbl ptd pts) s → s.consts.p.toNat.Prime →
    s.OnCurve (s.readPt pts) → exec (.pdbl ptd pts) s = .next t → s.OnCurve (t.readPt ptd)

/-- 43_point.md R225: over a prime `p`, the sum of two points on the curve is on the curve. -/
def Obligations.PaddStaysOnTheCurve : Prop :=
  ∀ (ptd pts1 pts2 : PtField) (s t : State), CanExecute (.padd ptd pts1 pts2) s →
    s.consts.p.toNat.Prime → s.OnCurve (s.readPt pts1) → s.OnCurve (s.readPt pts2) →
    exec (.padd ptd pts1 pts2) s = .next t → s.OnCurve (t.readPt ptd)

/-- 44_ladder.md R265: over a prime `p`, every multiple of a point on the curve is on the curve. -/
def Obligations.PmulStaysOnTheCurve : Prop :=
  ∀ (ptd pts : PtField) (vk : VField) (s t : State), CanExecute (.pmul ptd pts vk) s →
    s.consts.p.toNat.Prime → s.OnCurve (s.readPt pts) → exec (.pmul ptd pts vk) s = .next t →
    s.OnCurve (t.readPt ptd)

/-! ### What results do not depend on -/

/-- 42_modexp.md R181, 41_modular.md R146: no command but TOMONT depends on `CONST.R2P` or
`CONST.R2Q`: with other values there, every other register ends the same. -/
def Obligations.OnlyTomontReadsR2 : Prop :=
  ∀ (i : Instr) (s t : State) (r r' : Wide), (∀ m a b, i ≠ .tomont m a b) → exec i s = .next t →
    exec i { s with consts := { s.consts with r2p := r, r2q := r' } } =
      .next { t with consts := { t.consts with r2p := r, r2q := r' } }

/-! ### The register window (20_memory.md, 10_state.md) -/

/-- 20_memory.md R67: the offsets of the map select the registers and limbs it names. -/
def Obligations.OffsetsSelectTheMappedRegisters : Prop :=
  addrDecode 0x000 = .id ∧ addrDecode 0x008 = .ctrl ∧ addrDecode 0x010 = .status ∧
  addrDecode 0x018 = .cmd ∧ addrDecode 0x020 = .n0p ∧ addrDecode 0x028 = .n0q ∧
  (∀ (i : Fin 16) (j : Fin 8), addrDecode (0x100 + 0x40 * i + 8 * j) = .v (BitVec.ofNat 4 i) j) ∧
  (∀ (k : Fin 4) (c : Fin 3) (j : Fin 8),
    addrDecode (0x500 + 0xC0 * k + 0x40 * c + 8 * j)
      = .pt (BitVec.ofNat 4 k) (BitVec.ofNat 4 c) j) ∧
  (∀ j : Fin 8,
    addrDecode (0x800 + 8 * j) = .const .p j ∧ addrDecode (0x840 + 8 * j) = .const .r2p j ∧
    addrDecode (0x880 + 8 * j) = .const .a j ∧ addrDecode (0x8C0 + 8 * j) = .const .b j ∧
    addrDecode (0x900 + 8 * j) = .const .q j ∧ addrDecode (0x940 + 8 * j) = .const .r2q j) ∧
  (∀ off, (0x030 ≤ off ∧ off < 0x100) ∨ (0x980 ≤ off ∧ off < 0x1000) →
    addrDecode off = .reserved)

/-- 20_memory.md R63, R64, R65, R67, 10_state.md R29, R35: a legal read changes nothing but the answer,
which is the word the offset selects, or 0 for a data register while a command is pending; `ID`,
`CTRL`, `STATUS` and `CMD` answer at any time, `CMD` with the last accepted word; limb `j` of a wide
register is its value divided by `2^(64j)` modulo `2^64`; and byte address `off + j` holds bits 8j+7
to 8j of the word at `off`. That the answer stands in
`reply` is the model's choice (notes/assumptions/2.md), in this statement and those below. -/
def Obligations.LegalReadsOnlyAnswer : Prop :=
  (∀ (s : State) (off : BitVec 12), off.toNat % 8 = 0 →
    (∃ x, serveEvent (.read off 8) s = .next { s with reply := some (.data x false) } ∧
      (s.busy = true → (addrDecode off.toNat).isData = true → x = 0) ∧
      (s.busy = false ∨ (addrDecode off.toNat).isData = false →
        x = s.windowWord (addrDecode off.toNat))) ∧
    (∀ j < 8, (s.windowByte (off.toNat + j)).toNat =
      (s.windowWord (addrDecode off.toNat)).toNat / 2 ^ (8 * j) % 2 ^ 8)) ∧
  (∀ s : State,
    serveEvent (.read 0x000#12 8) s =
      .next { s with reply := some (.data 0x000000014D4D4543#64 false) } ∧
    serveEvent (.read 0x008#12 8) s = .next { s with reply := some (.data s.ctrlWord false) } ∧
    serveEvent (.read 0x010#12 8) s = .next { s with reply := some (.data s.statusWord false) } ∧
    serveEvent (.read 0x018#12 8) s = .next { s with reply := some (.data s.cmdLast false) }) ∧
  (∀ s : State, s.windowWord .n0p = s.n0p ∧ s.windowWord .n0q = s.n0q) ∧
  (∀ (s : State) (j : Fin 8),
    (∀ f, (s.windowWord (.v f j)).toNat = limbValue (s.readV f) j) ∧
    (∀ k, (s.windowWord (.pt k 0#4 j)).toNat = limbValue (s.readPt k).x j ∧
      (s.windowWord (.pt k 1#4 j)).toNat = limbValue (s.readPt k).y j ∧
      (s.windowWord (.pt k 2#4 j)).toNat = limbValue (s.readPt k).z j) ∧
    (s.windowWord (.const .p j)).toNat = limbValue s.consts.p j ∧
    (s.windowWord (.const .r2p j)).toNat = limbValue s.consts.r2p j ∧
    (s.windowWord (.const .a j)).toNat = limbValue s.consts.a j ∧
    (s.windowWord (.const .b j)).toNat = limbValue s.consts.b j ∧
    (s.windowWord (.const .q j)).toNat = limbValue s.consts.q j ∧
    (s.windowWord (.const .r2q j)).toNat = limbValue s.consts.r2q j)

/-- 20_memory.md R63, R64, R67: a legal write to a data register while no command is pending makes its
word read back and is the register's named limb, its byte `j` at byte address `off + j`, and leaves
every other word of the window as it was. -/
def Obligations.WritesReachOneWordOnly : Prop :=
  ∀ (s : State) (off : BitVec 12) (x : Limb), off.toNat % 8 = 0 → s.busy = false →
    (addrDecode off.toNat).isData = true →
    ∃ t, serveEvent (.write off 8 x) s = .next t ∧
      t.windowWord (addrDecode off.toNat) = x ∧
      (addrDecode off.toNat = .n0p → t.n0p = x) ∧
      (addrDecode off.toNat = .n0q → t.n0q = x) ∧
      (∀ f j, addrDecode off.toNat = .v f j → limbValue (t.readV f) j = x.toNat) ∧
      (∀ k j, addrDecode off.toNat = .pt k 0#4 j → limbValue (t.readPt k).x j = x.toNat) ∧
      (∀ k j, addrDecode off.toNat = .pt k 1#4 j → limbValue (t.readPt k).y j = x.toNat) ∧
      (∀ k j, addrDecode off.toNat = .pt k 2#4 j → limbValue (t.readPt k).z j = x.toNat) ∧
      (∀ j, addrDecode off.toNat = .const .p j → limbValue t.consts.p j = x.toNat) ∧
      (∀ j, addrDecode off.toNat = .const .r2p j → limbValue t.consts.r2p j = x.toNat) ∧
      (∀ j, addrDecode off.toNat = .const .a j → limbValue t.consts.a j = x.toNat) ∧
      (∀ j, addrDecode off.toNat = .const .b j → limbValue t.consts.b j = x.toNat) ∧
      (∀ j, addrDecode off.toNat = .const .q j → limbValue t.consts.q j = x.toNat) ∧
      (∀ j, addrDecode off.toNat = .const .r2q j → limbValue t.consts.r2q j = x.toNat) ∧
      (∀ j < 8, (t.windowByte (off.toNat + j)).toNat = x.toNat / 2 ^ (8 * j) % 2 ^ 8) ∧
      (∀ other : BitVec 12, other.toNat % 8 = 0 → other ≠ off →
        t.windowWord (addrDecode other.toNat) = s.windowWord (addrDecode other.toNat)) ∧
      t.pending = none ∧ t.ctrl = s.ctrl ∧ t.status = s.status ∧ t.inbox = s.inbox

/-- 10_state.md R36, R44: while a command is pending, a write to `CMD` or to a data register changes
nothing but OVR. -/
def Obligations.BusyRefusesWritesWithOvr : Prop :=
  ∀ (s : State) (off : BitVec 12) (x : Limb), off.toNat % 8 = 0 → s.busy = true →
    (addrDecode off.toNat = .cmd ∨ (addrDecode off.toNat).isData = true) →
    serveEvent (.write off 8 x) s =
      .next { s with status := { s.status with ovr := true }, reply := some (.written false) }

/-- 10_state.md R44, 20_memory.md R75: while a command is pending, no host access changes it, its
width or any data register, but for a soft reset, which abandons it and resets every register. -/
def Obligations.InputsAreFixedWhilePending : Prop :=
  ∀ (s t : State) (e : Event), s.busy = true → e ≠ .engine → e ≠ .hardReset →
    serveEvent e s = .next t →
      (t.pending = s.pending ∧ t.cmdLast = s.cmdLast ∧ t.runWidth = s.runWidth ∧ SameData s t) ∨
      (∃ x : Limb, e = .write 0x008#12 8 x ∧ x.getLsbD 2 = true ∧
        t = { State.reset with inbox := s.inbox, reply := some (.written false) })

/-- 20_memory.md R62: an access of another width or at an offset that is no multiple of 8 changes
nothing but BUSERR; a read of that kind returns 0; and the bus response is the platform's parameter. -/
def Obligations.IllegalAccessesOnlySetBuserr : Prop :=
  ∀ (s : State) (off : BitVec 12) (n : Nat) (x : Limb), (n ≠ 8 ∨ off.toNat % 8 ≠ 0) →
    serveEvent (.read off n) s =
      .next { s with status := { s.status with busErr := true },
                     reply := some (.data 0 Config.busErrorSignal) } ∧
    serveEvent (.write off n x) s =
      .next { s with status := { s.status with busErr := true },
                     reply := some (.written Config.busErrorSignal) }

/-- 10_state.md R42: a write to `CMD` while no command is pending is accepted, whatever the value: the
word and the size are latched, DONE and ERR cleared, and the flags and sticky bits unchanged. -/
def Obligations.CmdWritesAreAccepted : Prop :=
  ∀ (s : State) (x : Limb), s.busy = false →
    ∃ t, serveEvent (.write 0x018#12 8 x) s = .next t ∧
      t.cmdLast = x ∧ t.pending = some ⟨x, s.ctrl.size⟩ ∧ t.busy = true ∧
      t.status = { s.status with done := false, err := .none } ∧
      SameData s t ∧ t.ctrl = s.ctrl

/-- 10_state.md R33: a write to `STATUS` clears DONE, OVR and BUSERR where bits 1, 2 and 3 of the value
are 1, and changes nothing else, at any time. -/
def Obligations.StatusWritesClearByOnes : Prop :=
  ∀ (s : State) (x : Limb),
    serveEvent (.write 0x010#12 8 x) s =
      .next { s with
        status := { s.status with
          done := if x.getLsbD 1 then false else s.status.done
          ovr := if x.getLsbD 2 then false else s.status.ovr
          busErr := if x.getLsbD 3 then false else s.status.busErr }
        reply := some (.written false) }

/-- 10_state.md R31: a write to `CTRL` with bit 2 clear stores bits 0 and 1 and changes nothing else,
whether or not a command is pending; the width of a pending command stays. -/
def Obligations.CtrlWritesStoreSizeAndIe : Prop :=
  ∀ (s : State) (x : Limb), x.getLsbD 2 = false →
    ∃ t, serveEvent (.write 0x008#12 8 x) s = .next t ∧
      t = { s with ctrl := ⟨if x.getLsbD 0 then .w512 else .w256, x.getLsbD 1⟩
                   reply := some (.written false) } ∧
      (s.busy = true → t.runWidth = s.runWidth)

/-- 10_state.md R30, R32, 60_exceptions.md R280: the bits of `STATUS` and `CTRL` as they read, the
reserved ones 0, and the six values of `STATUS.ERR`. -/
def Obligations.StatusAndCtrlWordLayout : Prop :=
  ∀ s : State,
    s.statusWord.getLsbD 0 = s.busy ∧ s.statusWord.getLsbD 1 = s.status.done ∧
    s.statusWord.getLsbD 2 = s.status.ovr ∧ s.statusWord.getLsbD 3 = s.status.busErr ∧
    (s.status.err = .none → s.statusWord.extractLsb' 4 4 = 0#4) ∧
    (s.status.err = .illegalOpcode → s.statusWord.extractLsb' 4 4 = 1#4) ∧
    (s.status.err = .reservedField → s.statusWord.extractLsb' 4 4 = 2#4) ∧
    (s.status.err = .size → s.statusWord.extractLsb' 4 4 = 3#4) ∧
    (s.status.err = .badModulus → s.statusWord.extractLsb' 4 4 = 4#4) ∧
    (s.status.err = .unreduced → s.statusWord.extractLsb' 4 4 = 5#4) ∧
    s.statusWord.getLsbD 8 = s.status.lt ∧ s.statusWord.getLsbD 9 = s.status.eq ∧
    s.statusWord.getLsbD 10 = s.status.res ∧
    (∀ j, 11 ≤ j → s.statusWord.getLsbD j = false) ∧
    (s.ctrlWord.getLsbD 0 = true ↔ s.ctrl.size = .w512) ∧
    s.ctrlWord.getLsbD 1 = s.ctrl.ie ∧
    (∀ j, 2 ≤ j → s.ctrlWord.getLsbD j = false)

/-- 20_memory.md R64, R68, 10_state.md R29: a reserved offset reads 0, and a write to it or to `ID`
changes nothing but the answer, at any time. -/
def Obligations.ReservedOffsetsAreInert : Prop :=
  (∀ (s : State) (off : BitVec 12) (x : Limb), off.toNat % 8 = 0 →
    (0x030 ≤ off.toNat ∧ off.toNat < 0x100 ∨ 0x980 ≤ off.toNat) →
    serveEvent (.read off 8) s = .next { s with reply := some (.data 0 false) } ∧
    serveEvent (.write off 8 x) s = .next { s with reply := some (.written false) }) ∧
  (∀ (s : State) (x : Limb),
    serveEvent (.write 0x000#12 8 x) s = .next { s with reply := some (.written false) })
end

