-- ==== Sys2Proof/Laws/Arith.lean ====
section
/-! SUPPORT. The arithmetic facts of 41_modular.md and 42_modexp.md about the model's functions: the
inverse of the radix, the range and the meaning of the Montgomery product, and the modular sum,
difference and double on reduced operands. -/

namespace Sys2Proof.Machine

/-- `2^W · inv_m(2^W) ≡ 1 (mod m)` for odd `m` (00_scope.md R10, R13). -/
theorem pow_mul_invRadix {m : Nat} (hm : m % 2 = 1) (W : Nat) :
    2 ^ W * invRadix W m ≡ 1 [MOD m] := by
  have h2 : 2 * ((m + 1) / 2) ≡ 1 [MOD m] := by
    have : 2 * ((m + 1) / 2) = 1 + m := by omega
    rw [this]
    simp [Nat.ModEq]
  calc 2 ^ W * invRadix W m ≡ 2 ^ W * ((m + 1) / 2) ^ W [MOD m] :=
        (Nat.ModEq.refl _).mul (Nat.mod_modEq _ _)
    _ = (2 * ((m + 1) / 2)) ^ W := (mul_pow _ _ _).symm
    _ ≡ 1 ^ W [MOD m] := h2.pow W
    _ = 1 := one_pow W

/-- The Montgomery product is a canonical residue (41_modular.md R141). -/
theorem montMul_lt {m : Nat} (hm : 0 < m) (W x y : Nat) : montMul W m x y < m :=
  Nat.mod_lt _ hm

/-- `MM_m(x, y) · 2^W ≡ x · y (mod m)` (41_modular.md R141). -/
theorem montMul_mul_pow {m : Nat} (hm : m % 2 = 1) (W x y : Nat) :
    montMul W m x y * 2 ^ W ≡ x * y [MOD m] := by
  have h := (Nat.ModEq.refl (x * y)).mul (pow_mul_invRadix hm W)
  calc montMul W m x y * 2 ^ W ≡ x * y * invRadix W m * 2 ^ W [MOD m] :=
        (Nat.mod_modEq _ _).mul_right _
    _ = x * y * (2 ^ W * invRadix W m) := by ring
    _ ≡ x * y * 1 [MOD m] := h
    _ = x * y := mul_one _

/-- The conditional subtraction on a sum `t < 2·m` split at the width (41_modular.md R162). -/
theorem reduceOnce_eq {W m t : Nat} (hm : m ≤ 2 ^ W) (ht : t < 2 * m) :
    reduceOnce W m (t / 2 ^ W) (t % 2 ^ W) = t % m := by
  have hmod : m ≤ t → t % m = t - m := fun h => by
    rw [Nat.mod_eq_sub_mod h]
    exact Nat.mod_eq_of_lt (by omega)
  simp only [reduceOnce, subW]
  by_cases hc : t < 2 ^ W
  · rw [Nat.div_eq_of_lt hc, Nat.mod_eq_of_lt hc]
    by_cases hs : t < m
    · simp [hs, Nat.mod_eq_of_lt hs]
    · have h1 : (t + 2 ^ W - m) % 2 ^ W = t - m := by
        rw [show t + 2 ^ W - m = t - m + 2 ^ W by omega, Nat.add_mod_right]
        exact Nat.mod_eq_of_lt (by omega)
      simp [hs, h1, hmod (by omega)]
  · have hd : t / 2 ^ W = 1 := Nat.div_eq_of_lt_le (by omega) (by omega)
    have hs : t % 2 ^ W = t - 2 ^ W := by
      rw [Nat.mod_eq_sub_mod (by omega)]
      exact Nat.mod_eq_of_lt (by omega)
    have h1 : (t - 2 ^ W + 2 ^ W - m) % 2 ^ W = t - m := by
      rw [show t - 2 ^ W + 2 ^ W - m = t - m by omega]
      exact Nat.mod_eq_of_lt (by omega)
    simp [hd, hs, h1, hmod (by omega)]

/-- Modular addition of reduced operands (41_modular.md R162). -/
theorem modAdd_eq {W m x y : Nat} (hm : m ≤ 2 ^ W) (hx : x < m) (hy : y < m) :
    modAdd W m x y = (x + y) % m :=
  reduceOnce_eq hm (by omega)

/-- Modular subtraction of reduced operands (41_modular.md R165). -/
theorem modSub_eq {W m x y : Nat} (hm : m ≤ 2 ^ W) (hx : x < m) (hy : y < m) :
    modSub W m x y = (x + (m - y)) % m := by
  simp only [modSub, addW, subW]
  by_cases h : x < y
  · have h1 : (x + 2 ^ W - y) % 2 ^ W = x + 2 ^ W - y := Nat.mod_eq_of_lt (by omega)
    have h2 : (x + 2 ^ W - y + m) % 2 ^ W = x + (m - y) := by
      rw [show x + 2 ^ W - y + m = x + (m - y) + 2 ^ W by omega, Nat.add_mod_right]
      exact Nat.mod_eq_of_lt (by omega)
    have h3 : (x + (m - y)) % m = x + (m - y) := Nat.mod_eq_of_lt (by omega)
    simp [h, h1, h2, h3]
  · have h1 : (x + 2 ^ W - y) % 2 ^ W = x - y := by
      rw [show x + 2 ^ W - y = x - y + 2 ^ W by omega, Nat.add_mod_right]
      exact Nat.mod_eq_of_lt (by omega)
    have h3 : (x + (m - y)) % m = x - y := by
      rw [show x + (m - y) = x - y + m by omega, Nat.add_mod_right]
      exact Nat.mod_eq_of_lt (by omega)
    simp [h, h1, h3]

/-- MDBL's shift and top bit are the sum and carry of `x + x` (41_modular.md R170). -/
theorem modDbl_eq_modAdd {W m x : Nat} (hW : 0 < W) (hx : x < 2 ^ W) :
    modDbl W m x = modAdd W m x x := by
  have htop : (if x.testBit (W - 1) then 1 else 0) = (x + x) / 2 ^ W := by
    obtain ⟨k, rfl⟩ : ∃ k, W = k + 1 := ⟨W - 1, by omega⟩
    rw [Nat.add_sub_cancel, ← two_mul, pow_succ, Nat.mul_comm (2 ^ k) 2,
      Nat.mul_div_mul_left _ _ (by decide)]
    have hlt : x / 2 ^ k < 2 := Nat.div_lt_of_lt_mul (by rw [← pow_succ]; exact hx)
    rw [Nat.testBit_eq_decide_div_mod_eq]
    generalize x / 2 ^ k = d at hlt ⊢
    have : d = 0 ∨ d = 1 := by omega
    rcases this with h | h <;> simp [h]
  simp only [modDbl, modAdd, addW, htop, two_mul]

/-- Modular doubling of a reduced operand (41_modular.md R169). -/
theorem modDbl_eq {W m x : Nat} (hW : 0 < W) (hm : m ≤ 2 ^ W) (hx : x < m) :
    modDbl W m x = 2 * x % m := by
  rw [modDbl_eq_modAdd hW (by omega), modAdd_eq hm hx hx, two_mul]

/-- The radix is a unit modulo an odd `m` (00_scope.md R13). -/
theorem radix_mul_inv {m : Nat} (hm : m % 2 = 1) (W : Nat) :
    ((2 : ZMod m) ^ W) * ((2 : ZMod m) ^ W)⁻¹ = 1 := by
  have hc : Nat.Coprime (2 ^ W) m :=
    Nat.Coprime.pow_left W ((Nat.coprime_two_left).mpr (Nat.odd_iff.mpr hm))
  have h := ZMod.coe_mul_inv_eq_one (2 ^ W) hc
  push_cast at h
  exact h

/-- The Montgomery product in `ZMod m` (41_modular.md R141). -/
theorem montMul_cast {m : Nat} (hm : m % 2 = 1) (W x y : Nat) :
    (montMul W m x y : ZMod m) = x * y * ((2 : ZMod m) ^ W)⁻¹ := by
  have h := (ZMod.natCast_eq_natCast_iff _ _ _).mpr (montMul_mul_pow hm W x y)
  push_cast at h
  have hu := radix_mul_inv hm W
  calc (montMul W m x y : ZMod m)
      = montMul W m x y * ((2 : ZMod m) ^ W * ((2 : ZMod m) ^ W)⁻¹) := by rw [hu, mul_one]
    _ = montMul W m x y * (2 : ZMod m) ^ W * ((2 : ZMod m) ^ W)⁻¹ := by ring
    _ = x * y * ((2 : ZMod m) ^ W)⁻¹ := by rw [h]

/-- The exponentiation loop keeps its accumulator reduced (42_modexp.md R184). -/
theorem expLoop_lt {m : Nat} (hm : 0 < m) (W x k : Nat) :
    ∀ i acc, acc < m → expLoop W m x k i acc < m
  | 0, _, h => h
  | i + 1, acc, _ => by
    refine expLoop_lt hm W x k i _ ?_
    split <;> exact montMul_lt hm _ _ _

end Sys2Proof.Machine
end

