-- ==== Sys2Proof/Laws/Encoding.lean ====
section
/-! SUPPORT. The fields of a packed command word (30_encoding.md R91, R102). -/

namespace Sys2Proof

/-- Every field of a packed word is the field it was packed from, and every reserved bit is zero. -/
theorem cmdFields_packWord (opc : BitVec 6) (m : BitVec 1) (rd rs1 rs2 : BitVec 4) :
    cmdFields ((packWord opc m rd rs1 rs2).setWidth 64) = ⟨0, opc, m, 0, rd, rs1, rs2, 0⟩ := by
  simp only [cmdFields, packWord, CmdFields.mk.injEq]
  refine ⟨?_, ?_, ?_, ?_, ?_, ?_, ?_, ?_⟩ <;> ext j hj <;> interval_cases j <;> simp

/-- The `M` bit of a selection selects it back (30_encoding.md R94). -/
@[simp] theorem modSelOf_modBit (m : ModSel) : modSelOf (modBit m) = m := by
  cases m <;> rfl

end Sys2Proof
end

