-- ==== Sys2Proof/Laws/State.lean ====
section
/-! SUPPORT. What each update of the state leaves in each field: one lemma per field per update. -/

namespace Sys2Proof.Machine

section WriteV
variable (s : State) (f g : VField) (r : Wide)

@[simp] theorem State.writeV_pt : (s.writeV f r).pt = s.pt := rfl
@[simp] theorem State.writeV_consts : (s.writeV f r).consts = s.consts := rfl
@[simp] theorem State.writeV_n0p : (s.writeV f r).n0p = s.n0p := rfl
@[simp] theorem State.writeV_n0q : (s.writeV f r).n0q = s.n0q := rfl
@[simp] theorem State.writeV_ctrl : (s.writeV f r).ctrl = s.ctrl := rfl
@[simp] theorem State.writeV_status : (s.writeV f r).status = s.status := rfl
@[simp] theorem State.writeV_cmdLast : (s.writeV f r).cmdLast = s.cmdLast := rfl
@[simp] theorem State.writeV_pending : (s.writeV f r).pending = s.pending := rfl
@[simp] theorem State.writeV_inbox : (s.writeV f r).inbox = s.inbox := rfl
@[simp] theorem State.writeV_reply : (s.writeV f r).reply = s.reply := rfl
@[simp] theorem State.writeV_readPt (k : PtField) : (s.writeV f r).readPt k = s.readPt k := rfl

/-- A V register reads back what was written; every other one is unchanged. -/
@[simp] theorem State.readV_writeV :
    (s.writeV f r).readV g = if g = f then r else s.readV g := by
  unfold State.readV State.writeV
  simp only [Vector.getElem_set, BitVec.toNat_inj]
  simp only [eq_comm]

end WriteV

section WritePt
variable (s : State) (k l : PtField) (P : Point)

@[simp] theorem State.writePt_v : (s.writePt k P).v = s.v := rfl
@[simp] theorem State.writePt_consts : (s.writePt k P).consts = s.consts := rfl
@[simp] theorem State.writePt_n0p : (s.writePt k P).n0p = s.n0p := rfl
@[simp] theorem State.writePt_n0q : (s.writePt k P).n0q = s.n0q := rfl
@[simp] theorem State.writePt_ctrl : (s.writePt k P).ctrl = s.ctrl := rfl
@[simp] theorem State.writePt_status : (s.writePt k P).status = s.status := rfl
@[simp] theorem State.writePt_cmdLast : (s.writePt k P).cmdLast = s.cmdLast := rfl
@[simp] theorem State.writePt_pending : (s.writePt k P).pending = s.pending := rfl
@[simp] theorem State.writePt_inbox : (s.writePt k P).inbox = s.inbox := rfl
@[simp] theorem State.writePt_reply : (s.writePt k P).reply = s.reply := rfl
@[simp] theorem State.writePt_readV (f : VField) : (s.writePt k P).readV f = s.readV f := rfl

/-- A point register reads back what was written; every other one is unchanged. -/
@[simp] theorem State.readPt_writePt :
    (s.writePt k P).readPt l = if ptIndex l = ptIndex k then P else s.readPt l := by
  unfold State.readPt State.writePt
  simp only [Fin.getElem_fin, Vector.getElem_set, Fin.ext_iff]
  simp only [eq_comm]

end WritePt

section Complete
variable (s : State) (code : ErrCode)

@[simp] theorem State.complete_v : (s.complete code).v = s.v := rfl
@[simp] theorem State.complete_pt : (s.complete code).pt = s.pt := rfl
@[simp] theorem State.complete_consts : (s.complete code).consts = s.consts := rfl
@[simp] theorem State.complete_n0p : (s.complete code).n0p = s.n0p := rfl
@[simp] theorem State.complete_n0q : (s.complete code).n0q = s.n0q := rfl
@[simp] theorem State.complete_ctrl : (s.complete code).ctrl = s.ctrl := rfl
@[simp] theorem State.complete_cmdLast : (s.complete code).cmdLast = s.cmdLast := rfl
@[simp] theorem State.complete_pending : (s.complete code).pending = none := rfl
@[simp] theorem State.complete_inbox : (s.complete code).inbox = s.inbox := rfl
@[simp] theorem State.complete_reply : (s.complete code).reply = s.reply := rfl
@[simp] theorem State.complete_err : (s.complete code).status.err = code := rfl
@[simp] theorem State.complete_done : (s.complete code).status.done = true := rfl
@[simp] theorem State.complete_ovr : (s.complete code).status.ovr = s.status.ovr := rfl
@[simp] theorem State.complete_busErr : (s.complete code).status.busErr = s.status.busErr := rfl
@[simp] theorem State.complete_lt : (s.complete code).status.lt = s.status.lt := rfl
@[simp] theorem State.complete_eq : (s.complete code).status.eq = s.status.eq := rfl
@[simp] theorem State.complete_res : (s.complete code).status.res = s.status.res := rfl
@[simp] theorem State.complete_readV (f : VField) : (s.complete code).readV f = s.readV f := rfl
@[simp] theorem State.complete_readPt (k : PtField) :
    (s.complete code).readPt k = s.readPt k := rfl

end Complete

section Flags
variable (s : State) (b : Bool) (x y : Nat)

@[simp] theorem State.setRes_v : (s.setRes b).v = s.v := rfl
@[simp] theorem State.setRes_pt : (s.setRes b).pt = s.pt := rfl
@[simp] theorem State.setRes_consts : (s.setRes b).consts = s.consts := rfl
@[simp] theorem State.setRes_n0p : (s.setRes b).n0p = s.n0p := rfl
@[simp] theorem State.setRes_n0q : (s.setRes b).n0q = s.n0q := rfl
@[simp] theorem State.setRes_ctrl : (s.setRes b).ctrl = s.ctrl := rfl
@[simp] theorem State.setRes_cmdLast : (s.setRes b).cmdLast = s.cmdLast := rfl
@[simp] theorem State.setRes_pending : (s.setRes b).pending = s.pending := rfl
@[simp] theorem State.setRes_inbox : (s.setRes b).inbox = s.inbox := rfl
@[simp] theorem State.setRes_reply : (s.setRes b).reply = s.reply := rfl
@[simp] theorem State.setRes_status : (s.setRes b).status = { s.status with res := b } := rfl
@[simp] theorem State.setRes_readV (f : VField) : (s.setRes b).readV f = s.readV f := rfl
@[simp] theorem State.setRes_readPt (k : PtField) : (s.setRes b).readPt k = s.readPt k := rfl

@[simp] theorem State.setCompareFlags_v : (s.setCompareFlags x y).v = s.v := rfl
@[simp] theorem State.setCompareFlags_pt : (s.setCompareFlags x y).pt = s.pt := rfl
@[simp] theorem State.setCompareFlags_consts : (s.setCompareFlags x y).consts = s.consts := rfl
@[simp] theorem State.setCompareFlags_n0p : (s.setCompareFlags x y).n0p = s.n0p := rfl
@[simp] theorem State.setCompareFlags_n0q : (s.setCompareFlags x y).n0q = s.n0q := rfl
@[simp] theorem State.setCompareFlags_ctrl : (s.setCompareFlags x y).ctrl = s.ctrl := rfl
@[simp] theorem State.setCompareFlags_cmdLast : (s.setCompareFlags x y).cmdLast = s.cmdLast := rfl
@[simp] theorem State.setCompareFlags_pending : (s.setCompareFlags x y).pending = s.pending := rfl
@[simp] theorem State.setCompareFlags_inbox : (s.setCompareFlags x y).inbox = s.inbox := rfl
@[simp] theorem State.setCompareFlags_reply : (s.setCompareFlags x y).reply = s.reply := rfl
@[simp] theorem State.setCompareFlags_ovr :
    (s.setCompareFlags x y).status.ovr = s.status.ovr := rfl
@[simp] theorem State.setCompareFlags_busErr :
    (s.setCompareFlags x y).status.busErr = s.status.busErr := rfl
@[simp] theorem State.setCompareFlags_res :
    (s.setCompareFlags x y).status.res = s.status.res := rfl
@[simp] theorem State.setCompareFlags_readV (f : VField) :
    (s.setCompareFlags x y).readV f = s.readV f := rfl
@[simp] theorem State.setCompareFlags_readPt (k : PtField) :
    (s.setCompareFlags x y).readPt k = s.readPt k := rfl

end Flags

section Accept
variable (s : State) (w : Limb)

@[simp] theorem State.accept_v : (s.accept w).v = s.v := rfl
@[simp] theorem State.accept_pt : (s.accept w).pt = s.pt := rfl
@[simp] theorem State.accept_consts : (s.accept w).consts = s.consts := rfl
@[simp] theorem State.accept_n0p : (s.accept w).n0p = s.n0p := rfl
@[simp] theorem State.accept_n0q : (s.accept w).n0q = s.n0q := rfl
@[simp] theorem State.accept_ctrl : (s.accept w).ctrl = s.ctrl := rfl
@[simp] theorem State.accept_cmdLast : (s.accept w).cmdLast = w := rfl
@[simp] theorem State.accept_pending : (s.accept w).pending = some ⟨w, s.ctrl.size⟩ := rfl
@[simp] theorem State.accept_inbox : (s.accept w).inbox = s.inbox := rfl
@[simp] theorem State.accept_reply : (s.accept w).reply = s.reply := rfl
@[simp] theorem State.accept_runWidth : (s.accept w).runWidth = s.ctrl.size := rfl
@[simp] theorem State.accept_status :
    (s.accept w).status = { s.status with done := false, err := .none } := rfl

@[simp] theorem State.setOvr_status : s.setOvr.status = { s.status with ovr := true } := rfl
@[simp] theorem State.setOvr_pending : s.setOvr.pending = s.pending := rfl
@[simp] theorem State.setOvr_cmdLast : s.setOvr.cmdLast = s.cmdLast := rfl
@[simp] theorem State.setOvr_inbox : s.setOvr.inbox = s.inbox := rfl
@[simp] theorem State.setBusErr_status :
    s.setBusErr.status = { s.status with busErr := true } := rfl
@[simp] theorem State.setBusErr_pending : s.setBusErr.pending = s.pending := rfl
@[simp] theorem State.setBusErr_cmdLast : s.setBusErr.cmdLast = s.cmdLast := rfl
@[simp] theorem State.setBusErr_inbox : s.setBusErr.inbox = s.inbox := rfl
@[simp] theorem State.writeStatus_pending : (s.writeStatus w).pending = s.pending := rfl
@[simp] theorem State.writeStatus_cmdLast : (s.writeStatus w).cmdLast = s.cmdLast := rfl
@[simp] theorem State.writeStatus_inbox : (s.writeStatus w).inbox = s.inbox := rfl
@[simp] theorem State.writeStatus_err : (s.writeStatus w).status.err = s.status.err := rfl
@[simp] theorem State.writeStatus_lt : (s.writeStatus w).status.lt = s.status.lt := rfl
@[simp] theorem State.writeStatus_eq : (s.writeStatus w).status.eq = s.status.eq := rfl
@[simp] theorem State.writeStatus_res : (s.writeStatus w).status.res = s.status.res := rfl

end Accept

section StoreData
variable (s : State) (r : WinReg) (x : Limb)

@[simp] theorem State.storeData_status : (s.storeData r x).status = s.status := by
  cases r <;> rfl
@[simp] theorem State.storeData_pending : (s.storeData r x).pending = s.pending := by
  cases r <;> rfl
@[simp] theorem State.storeData_cmdLast : (s.storeData r x).cmdLast = s.cmdLast := by
  cases r <;> rfl
@[simp] theorem State.storeData_ctrl : (s.storeData r x).ctrl = s.ctrl := by
  cases r <;> rfl
@[simp] theorem State.storeData_inbox : (s.storeData r x).inbox = s.inbox := by
  cases r <;> rfl

end StoreData

end Sys2Proof.Machine
end

