-- ==== Sys2Proof/Laws/Ops.lean ====
section
/-! SUPPORT. What each shared operation can do, said once: the completion step of a command, the
checks, a host access, one event and one step. -/

namespace Sys2Proof.Machine

/-- A command that passes its checks completes with code 0 after its effect. -/
theorem runCommand_ok {c : Checks} {effect : State → State} {s : State}
    (h : validate s.runWidth c = .none) :
    runCommand c effect s = .next ((effect s).complete .none) := by
  simp [runCommand, h]

/-- A command that fails a check completes with the check's code and nothing else
(60_exceptions.md R284). -/
theorem runCommand_error {c : Checks} {effect : State → State} {s : State}
    (h : validate s.runWidth c ≠ .none) :
    runCommand c effect s = .next (s.complete (validate s.runWidth c)) := by
  unfold runCommand
  split
  · exact absurd ‹_› h
  · rfl

/-- Everything the completion step of a command can do. -/
theorem runCommand_cases (c : Checks) (effect : State → State) (s : State) :
    (validate s.runWidth c = .none ∧ runCommand c effect s = .next ((effect s).complete .none)) ∨
    (validate s.runWidth c ≠ .none ∧
      runCommand c effect s = .next (s.complete (validate s.runWidth c))) := by
  by_cases h : validate s.runWidth c = .none
  · exact .inl ⟨h, runCommand_ok h⟩
  · exact .inr ⟨h, runCommand_error h⟩

/-- The SIZE test passes exactly when, at 256 bits, every listed register fits. -/
theorem sizeOk_iff (w : Width) (wide : List Wide) :
    sizeOk w wide = true ↔ (w = .w256 → ∀ r ∈ wide, r.toNat < 2 ^ 256) := by
  cases w
  · simp [sizeOk, highNonzero, Nat.div_eq_zero_iff]
  · simp [sizeOk]

/-- The REDUCED test passes exactly when every listed value is below the modulus. -/
theorem allReduced_iff (m : Wide) (reduced : List Wide) :
    allReduced m reduced = true ↔ ∀ x ∈ reduced, x.toNat < m.toNat := by
  simp [allReduced]

/-- Limb 0 of a wide register is its value modulo `2^64` (00_scope.md R9). -/
theorem getLimb_zero_toNat (r : Wide) : (getLimb r 0).toNat = r.toNat % 2 ^ 64 := by
  simp [getLimb]

/-- `ValidSet` (41_modular.md R142). -/
theorem validSet_iff (ms : ModSet) :
    validSet ms = true ↔ ms.m.toNat % 2 = 1 ∧ 3 ≤ ms.m.toNat
      ∧ ms.n0.toNat * (ms.m.toNat % 2 ^ 64) % 2 ^ 64 = 2 ^ 64 - 1 := by
  unfold validSet
  rw [getLimb_zero_toNat, decide_eq_true_eq]

/-- `Validate` answers 0 exactly when every check passes (30_encoding.md R100). -/
theorem validate_eq_none_iff (w : Width) (c : Checks) :
    validate w c = .none ↔
      c.fields = true ∧ sizeOk w c.wide = true ∧
        ∀ ms ∈ c.modset, validSet ms = true ∧ allReduced ms.m c.reduced = true := by
  unfold validate
  cases c.fields <;> cases sizeOk w c.wide <;> rcases c.modset with _ | ms <;> simp
  cases validSet ms <;> cases allReduced ms.m c.reduced <;> simp

/-- A host read changes nothing but `reply` and, where it is illegal, BUSERR. -/
theorem State.hostRead_cases (s : State) (off : BitVec 12) (bytes : Nat) :
    (legalAccess off bytes = true ∧
      s.hostRead off bytes = { s with reply := some (.data (s.legalRead (addrDecode off.toNat)) false) }) ∨
    (legalAccess off bytes = false ∧
      s.hostRead off bytes = { s.setBusErr with reply := some (.data 0 Config.busErrorSignal) }) := by
  unfold State.hostRead
  cases legalAccess off bytes <;> simp

/-- A host write is a legal write of the window register its offset selects, or sets BUSERR. -/
theorem State.hostWrite_cases (s : State) (off : BitVec 12) (bytes : Nat) (x : Limb) :
    (legalAccess off bytes = true ∧
      s.hostWrite off bytes x =
        { s.legalWrite (addrDecode off.toNat) x with reply := some (.written false) }) ∨
    (legalAccess off bytes = false ∧
      s.hostWrite off bytes x =
        { s.setBusErr with reply := some (.written Config.busErrorSignal) }) := by
  unfold State.hostWrite
  cases legalAccess off bytes <;> simp

/-- The engine's turn: idle, a decoded command, or a rejected word. -/
theorem engineStep_cases (s : State) :
    (s.pending = none ∧ engineStep s = .next s) ∨
    (∃ c i, s.pending = some c ∧ decode c.word = .ok i ∧ engineStep s = exec i s) ∨
    (∃ c e, s.pending = some c ∧ decode c.word = .error e ∧
      engineStep s = .next (s.complete (decodeErrorCode e))) := by
  unfold engineStep completeWord State.raiseError
  cases hp : s.pending with
  | none => exact .inl ⟨rfl, rfl⟩
  | some c =>
    cases hd : decode c.word with
    | ok i => exact .inr (.inl ⟨c, i, rfl, hd, by simp [hd]⟩)
    | error e => exact .inr (.inr ⟨c, e, rfl, hd, by simp [hd]⟩)

/-- One step: the engine's turn on an empty inbox, else the oldest event. -/
theorem step_cases (s : State) :
    (s.inbox = [] ∧ step s = engineStep s) ∨
    (∃ e rest, s.inbox = e :: rest ∧ step s = serveEvent e { s with inbox := rest }) := by
  unfold step
  cases h : s.inbox with
  | nil => exact .inl ⟨rfl, rfl⟩
  | cons e rest => exact .inr ⟨e, rest, rfl, rfl⟩

/-- Placing a command is accepting it, with the engine's turn next. -/
@[simp] theorem State.placeCommand_inbox (s : State) (w : Limb) :
    (s.placeCommand w).inbox = .engine :: s.inbox := rfl

/-- The step after a command is placed is the completion of that command. -/
theorem step_placeCommand (s : State) (w : Limb) :
    step (s.placeCommand w) = completeWord w (s.accept w) := rfl

end Sys2Proof.Machine
end

