-- ==== Sys2Proof/Laws/Exec.lean ====
section
/-! SUPPORT. What `exec` can do, said once: it is the completion step of the command's checks and
effect, whose lists are the ones Safety.lean takes from the spec's tables, and it succeeds exactly
where `CanExecute` holds. -/

namespace Sys2Proof.Machine

/-- What the effect of a command does to a state, as the registers it may write: at most its
destination, or the flags of ICMP, PISINF and PONC. -/
def EffectOf (i : Instr) (s t : State) : Prop :=
  t = s ∨ (∃ d r, destV i = some d ∧ t = s.writeV d r) ∨
    (∃ d P, destPt i = some d ∧ t = s.writePt d P) ∨
    (∃ a b x y, i = .icmp a b ∧ t = s.setCompareFlags x y) ∨
    (∃ k b, (i = .pisinf k ∨ i = .ponc k) ∧ t = s.setRes b)

/-- Every command is the completion step of some checks and an effect: the checks' lists are the
spec's (Safety.lean), and the effect writes only what `EffectOf` says. -/
theorem exec_eq_runCommand (i : Instr) (s : State) :
    ∃ c effect, exec i s = runCommand c effect s ∧
      c.fields = wellFormed i ∧ (∀ r, r ∈ c.wide ↔ r ∈ wideReads i s) ∧
      c.modset = (usedSet i).map s.modSet ∧
      ((usedSet i).isSome = true → c.reduced = reducedReads i s) ∧
      EffectOf i s (effect s) := by
  cases i <;>
    simp only [exec, execNop, execMov, execIcmp, execMmul, execMadd, execMsub, execMdbl, execTomont,
      execFrommont, execMexp, execMinv, execPinf, execPmov, execPget, execPput, execPisinf, execPonc,
      execPdbl, execPadd, execPaff, execPmul] <;>
    refine ⟨_, _, rfl, rfl, ?_, rfl, ?_, ?_⟩ <;>
    simp [wideReads, sourceVs, sourcePts, usedSet, sourceConsts, modularChecks, reducedReads,
      Point.coords, EffectOf, destV, destPt]
  all_goals tauto

/-- Where the checks' lists are the spec's, `Validate` answers 0 exactly where the command can
execute. -/
theorem validate_eq_none_iff_canExecute {i : Instr} {s : State} {c : Checks}
    (hf : c.fields = wellFormed i) (hw : ∀ r, r ∈ c.wide ↔ r ∈ wideReads i s)
    (hm : c.modset = (usedSet i).map s.modSet)
    (hr : (usedSet i).isSome = true → c.reduced = reducedReads i s) :
    validate s.runWidth c = .none ↔ CanExecute i s := by
  rw [validate_eq_none_iff, hf, sizeOk_iff, hm]
  simp only [hw, CanExecute, SizeHolds, ModulusHolds, ReducedHolds]
  cases h : usedSet i with
  | none => simp
  | some m =>
    rw [h] at hr
    simp [hr rfl, allReduced_iff, validSet_iff, SetIsValid, and_assoc]

/-- Whether a command can execute, as `Validate` of the lists that the spec's tables give. -/
theorem canExecute_iff_validate (i : Instr) (s : State) :
    CanExecute i s ↔ validate s.runWidth
      ⟨wellFormed i, wideReads i s, (usedSet i).map s.modSet, reducedReads i s⟩ = .none :=
  (validate_eq_none_iff_canExecute rfl (fun _ => Iff.rfl) rfl (fun _ => rfl)).symm

/-- The SIZE check passes, as `Validate` tests it. -/
theorem sizeHolds_iff (i : Instr) (s : State) :
    SizeHolds i s ↔ sizeOk s.runWidth (wideReads i s) = true :=
  (sizeOk_iff _ _).symm

/-- The MODSET check passes, as `Validate` tests it. -/
theorem modulusHolds_iff (i : Instr) (s : State) :
    ModulusHolds i s ↔ (usedSet i).all (fun m => validSet (s.modSet m)) = true := by
  cases h : usedSet i <;> simp [ModulusHolds, SetIsValid, h, validSet_iff]

/-- The REDUCED check passes, as `Validate` tests it. -/
theorem reducedHolds_iff (i : Instr) (s : State) :
    ReducedHolds i s ↔
      (usedSet i).all (fun m => allReduced (s.modSet m).m (reducedReads i s)) = true := by
  cases h : usedSet i <;> simp [ReducedHolds, h, allReduced_iff]

/-- Everything `exec` can do: where the command can execute it completes with code 0 after its
effect; else it completes with an error code and nothing else (60_exceptions.md R283, R284). -/
theorem exec_cases (i : Instr) (s : State) :
    (CanExecute i s ∧ ∃ u, EffectOf i s u ∧ exec i s = .next (u.complete .none)) ∨
    (¬ CanExecute i s ∧ ∃ code, code ≠ .none ∧ exec i s = .next (s.complete code)) := by
  obtain ⟨c, effect, he, hf, hw, hm, hr, heff⟩ := exec_eq_runCommand i s
  have hv := validate_eq_none_iff_canExecute hf hw hm hr
  rcases runCommand_cases c effect s with ⟨h, h'⟩ | ⟨h, h'⟩
  · exact .inl ⟨hv.mp h, _, heff, he.trans h'⟩
  · exact .inr ⟨fun hc => h (hv.mpr hc), _, h, he.trans h'⟩

end Sys2Proof.Machine
end

