-- ==== Sys2Proof/Laws/Field.lean ====
section
/-! SUPPORT. Equations between the residues that register values stand for (00_scope.md R13), as
equations between the values themselves. -/

namespace Sys2Proof.Machine

/-- `ψ_m(x) · 2^W = x` in the residues modulo an odd `m` (00_scope.md R13). -/
theorem montValue_mul_radix {m : Nat} (hm : m % 2 = 1) (W : Nat) (x : Wide) :
    montValue W m x * (2 : ZMod m) ^ W = (x.toNat : ZMod m) := by
  rw [montValue, mul_assoc, mul_comm _ ((2 : ZMod m) ^ W), radix_mul_inv hm, mul_one]

/-- The radix is a unit modulo an odd `m` (00_scope.md R13). -/
theorem isUnit_radix {m : Nat} (hm : m % 2 = 1) (W : Nat) : IsUnit ((2 : ZMod m) ^ W) :=
  IsUnit.of_mul_eq_one _ (radix_mul_inv hm W)

/-- Two products of residues are equal exactly when the products of the values are congruent. -/
theorem State.fieldValue_mul_eq_iff {s : State} (hp : s.consts.p.toNat % 2 = 1) (a b c d : Wide) :
    s.fieldValue a * s.fieldValue b = s.fieldValue c * s.fieldValue d ↔
      a.toNat * b.toNat ≡ c.toNat * d.toNat [MOD s.consts.p.toNat] := by
  have hu := isUnit_radix hp s.runBits
  rw [← ZMod.natCast_eq_natCast_iff]
  push_cast
  simp only [← montValue_mul_radix hp s.runBits]
  rw [← (hu.mul hu).mul_left_inj]
  simp only [State.fieldValue]
  ring_nf

/-- The curve equation on the values themselves, each term brought to the same power of the radix. -/
theorem State.onCurve_iff {s : State} (hp : s.consts.p.toNat % 2 = 1) (P : Point) :
    s.OnCurve P ↔
      P.y.toNat ^ 2 * P.z.toNat * 2 ^ s.runBits ≡
        P.x.toNat ^ 3 * 2 ^ s.runBits + s.consts.a.toNat * P.x.toNat * P.z.toNat ^ 2
          + s.consts.b.toNat * P.z.toNat ^ 3 [MOD s.consts.p.toNat] := by
  have hu := isUnit_radix hp s.runBits
  rw [← ZMod.natCast_eq_natCast_iff]
  push_cast
  simp only [← montValue_mul_radix hp s.runBits]
  rw [State.OnCurve, ← (hu.pow 4).mul_left_inj]
  simp only [State.fieldValue]
  ring_nf

end Sys2Proof.Machine
end

