-- ==== Sys2Proof/Laws/PerInstr.lean ====
section
/-! SUPPORT. One statement per command about its word: the reserved bits are zero, the opcode map has
a row for it that reads the command back, and the fields the row does not use are zero
(30_encoding.md R90, R91, R95, R97, R102). -/

namespace Sys2Proof.Laws.ReservedBits

/-- The word of `i` has zero reserved bits (63:32, 24:16 and 3:0), and the opcode map reads `i` out of
it with every unused field zero. -/
def Statement (i : Instr) : Prop :=
  reservedBitsZero (cmdFields (cmdValue i)) = true ∧
    readRow (cmdFields (cmdValue i)) = some ⟨i, true⟩

/-- A word whose fields are read back by a row with no unused field set. -/
theorem statement_of_packWord {i : Instr} {opc : BitVec 6} {m : BitVec 1} {rd rs1 rs2 : BitVec 4}
    (hw : encode i = packWord opc m rd rs1 rs2)
    (hr : readRow ⟨0, opc, m, 0, rd, rs1, rs2, 0⟩ = some ⟨i, true⟩) : Statement i := by
  have h : cmdFields (cmdValue i) = ⟨0, opc, m, 0, rd, rs1, rs2, 0⟩ := by
    rw [cmdValue, hw, cmdFields_packWord]
  exact ⟨by rw [h]; rfl, by rw [h]; exact hr⟩

theorem nop : Statement .nop :=
  statement_of_packWord rfl rfl

theorem mov (vd vs : VField) : Statement (.mov vd vs) :=
  statement_of_packWord rfl rfl

theorem icmp (vs1 vs2 : VField) : Statement (.icmp vs1 vs2) :=
  statement_of_packWord rfl rfl

theorem mmul (m : ModSel) (vd vs1 vs2 : VField) : Statement (.mmul m vd vs1 vs2) :=
  statement_of_packWord rfl (by cases m <;> rfl)

theorem madd (m : ModSel) (vd vs1 vs2 : VField) : Statement (.madd m vd vs1 vs2) :=
  statement_of_packWord rfl (by cases m <;> rfl)

theorem msub (m : ModSel) (vd vs1 vs2 : VField) : Statement (.msub m vd vs1 vs2) :=
  statement_of_packWord rfl (by cases m <;> rfl)

theorem mdbl (m : ModSel) (vd vs : VField) : Statement (.mdbl m vd vs) :=
  statement_of_packWord rfl (by cases m <;> rfl)

theorem tomont (m : ModSel) (vd vs : VField) : Statement (.tomont m vd vs) :=
  statement_of_packWord rfl (by cases m <;> rfl)

theorem frommont (m : ModSel) (vd vs : VField) : Statement (.frommont m vd vs) :=
  statement_of_packWord rfl (by cases m <;> rfl)

theorem mexp (m : ModSel) (vd vbase vexp : VField) : Statement (.mexp m vd vbase vexp) :=
  statement_of_packWord rfl (by cases m <;> rfl)

theorem minv (m : ModSel) (vd vs : VField) : Statement (.minv m vd vs) :=
  statement_of_packWord rfl (by cases m <;> rfl)

theorem pinf (ptd : PtField) : Statement (.pinf ptd) :=
  statement_of_packWord rfl rfl

theorem pmov (ptd pts : PtField) : Statement (.pmov ptd pts) :=
  statement_of_packWord rfl rfl

theorem pget (vd : VField) (pts : PtField) (c : CField) : Statement (.pget vd pts c) :=
  statement_of_packWord rfl rfl

theorem pput (ptd : PtField) (vs : VField) (c : CField) : Statement (.pput ptd vs c) :=
  statement_of_packWord rfl rfl

theorem pisinf (pts : PtField) : Statement (.pisinf pts) :=
  statement_of_packWord rfl rfl

theorem ponc (pts : PtField) : Statement (.ponc pts) :=
  statement_of_packWord rfl rfl

theorem pdbl (ptd pts : PtField) : Statement (.pdbl ptd pts) :=
  statement_of_packWord rfl rfl

theorem padd (ptd pts1 pts2 : PtField) : Statement (.padd ptd pts1 pts2) :=
  statement_of_packWord rfl rfl

theorem paff (ptd pts : PtField) : Statement (.paff ptd pts) :=
  statement_of_packWord rfl rfl

theorem pmul (ptd pts : PtField) (vk : VField) : Statement (.pmul ptd pts vk) :=
  statement_of_packWord rfl rfl

end Sys2Proof.Laws.ReservedBits
end

