-- ==== Sys2Proof/Laws/Results.lean ====
section
/-! SUPPORT. The completion of each command where it can execute: one equation a command, which the
provers cite in place of unfolding `exec`. -/

namespace Sys2Proof.Machine

/-- A wide register's value written back is the register. -/
@[simp] theorem zextWide_toNat (r : Wide) : zextWide r.toNat = r := by
  simp [zextWide]

set_option exponentiation.threshold 512 in
/-- A result below `2^512` is kept whole (00_scope.md R11). -/
theorem toNat_zextWide {n : Nat} (h : n < 2 ^ 512) : (zextWide n).toNat = n := by
  exact (BitVec.toNat_ofNat _ _).trans (Nat.mod_eq_of_lt h)

/-- A point's values written back are the point. -/
@[simp] theorem Point.triple_point (P : Point) : P.triple.point = P := by
  simp [Point.triple, Triple.point]

/-- The canonical infinity as it is written (10_state.md R26). -/
@[simp] theorem infinity_point : Machine.infinity.point = Point.infinity := rfl

/-- The checks of a command pass where it can execute. -/
theorem runCommand_of_canExecute {i : Instr} {s : State} {c : Checks} {effect : State → State}
    (h : CanExecute i s) (hf : c.fields = wellFormed i) (hw : ∀ r, r ∈ c.wide ↔ r ∈ wideReads i s)
    (hm : c.modset = (usedSet i).map s.modSet)
    (hr : (usedSet i).isSome = true → c.reduced = reducedReads i s) :
    runCommand c effect s = .next ((effect s).complete .none) :=
  runCommand_ok ((validate_eq_none_iff_canExecute hf hw hm hr).mpr h)

section
variable {s : State} {m : ModSel} {vd vs vs1 vs2 : VField} {ptd pts pts1 : PtField} {c : CField}

theorem exec_nop_ok (h : CanExecute .nop s) :
    exec .nop s = .next ((s).complete .none) := by
  simp only [exec, execNop]
  exact (runCommand_of_canExecute h rfl (by simp [wideReads, sourceVs, sourcePts, usedSet, sourceConsts]) rfl
    (by simp [reducedReads, usedSet])).trans (by simp)

theorem exec_mov_ok (h : CanExecute (.mov vd vs) s) :
    exec (.mov vd vs) s = .next ((s.writeV vd (s.readV vs)).complete .none) := by
  simp only [exec, execMov]
  exact (runCommand_of_canExecute h rfl (by simp [wideReads, sourceVs, sourcePts, usedSet, sourceConsts]) rfl
    (by simp [reducedReads, usedSet])).trans (by simp)

theorem exec_icmp_ok (h : CanExecute (.icmp vs1 vs2) s) :
    exec (.icmp vs1 vs2) s = .next ((s.setCompareFlags (s.readV vs1).toNat (s.readV vs2).toNat).complete .none) := by
  simp only [exec, execIcmp]
  exact (runCommand_of_canExecute h rfl (by simp [wideReads, sourceVs, sourcePts, usedSet, sourceConsts]) rfl
    (by simp [reducedReads, usedSet])).trans (by simp)

theorem exec_mmul_ok (h : CanExecute (.mmul m vd vs1 vs2) s) :
    exec (.mmul m vd vs1 vs2) s = .next ((s.writeV vd (zextWide
      (montMul s.runBits (s.modSet m).m.toNat (s.readV vs1).toNat (s.readV vs2).toNat))).complete .none) := by
  simp only [exec, execMmul]
  exact (runCommand_of_canExecute h rfl (by simp [wideReads, sourceVs, sourcePts, usedSet, sourceConsts, modularChecks]) rfl
    (by simp [reducedReads, usedSet, modularChecks])).trans (by simp)

theorem exec_madd_ok (h : CanExecute (.madd m vd vs1 vs2) s) :
    exec (.madd m vd vs1 vs2) s = .next ((s.writeV vd (zextWide
      (modAdd s.runBits (s.modSet m).m.toNat (s.readV vs1).toNat (s.readV vs2).toNat))).complete .none) := by
  simp only [exec, execMadd]
  exact (runCommand_of_canExecute h rfl (by simp [wideReads, sourceVs, sourcePts, usedSet, sourceConsts, modularChecks]) rfl
    (by simp [reducedReads, usedSet, modularChecks])).trans (by simp)

theorem exec_msub_ok (h : CanExecute (.msub m vd vs1 vs2) s) :
    exec (.msub m vd vs1 vs2) s = .next ((s.writeV vd (zextWide
      (modSub s.runBits (s.modSet m).m.toNat (s.readV vs1).toNat (s.readV vs2).toNat))).complete .none) := by
  simp only [exec, execMsub]
  exact (runCommand_of_canExecute h rfl (by simp [wideReads, sourceVs, sourcePts, usedSet, sourceConsts, modularChecks]) rfl
    (by simp [reducedReads, usedSet, modularChecks])).trans (by simp)

theorem exec_mdbl_ok (h : CanExecute (.mdbl m vd vs) s) :
    exec (.mdbl m vd vs) s = .next ((s.writeV vd (zextWide
      (modDbl s.runBits (s.modSet m).m.toNat (s.readV vs).toNat))).complete .none) := by
  simp only [exec, execMdbl]
  exact (runCommand_of_canExecute h rfl (by simp [wideReads, sourceVs, sourcePts, usedSet, sourceConsts, modularChecks]) rfl
    (by simp [reducedReads, usedSet, modularChecks])).trans (by simp)

theorem exec_tomont_ok (h : CanExecute (.tomont m vd vs) s) :
    exec (.tomont m vd vs) s = .next ((s.writeV vd (zextWide
      (montMul s.runBits (s.modSet m).m.toNat (s.readV vs).toNat (s.modSet m).r2.toNat))).complete .none) := by
  simp only [exec, execTomont]
  exact (runCommand_of_canExecute h rfl (by simp [wideReads, sourceVs, sourcePts, usedSet, sourceConsts, modularChecks]; tauto) rfl
    (by simp [reducedReads, usedSet, modularChecks])).trans (by simp)

theorem exec_frommont_ok (h : CanExecute (.frommont m vd vs) s) :
    exec (.frommont m vd vs) s = .next ((s.writeV vd (zextWide
      (montMul s.runBits (s.modSet m).m.toNat (s.readV vs).toNat 1))).complete .none) := by
  simp only [exec, execFrommont]
  exact (runCommand_of_canExecute h rfl (by simp [wideReads, sourceVs, sourcePts, usedSet, sourceConsts, modularChecks]) rfl
    (by simp [reducedReads, usedSet, modularChecks])).trans (by simp)

theorem exec_mexp_ok (h : CanExecute (.mexp m vd vs1 vs2) s) :
    exec (.mexp m vd vs1 vs2) s = .next ((s.writeV vd (zextWide
      (montExp s.runBits (s.modSet m).m.toNat (s.readV vs1).toNat (s.readV vs2).toNat))).complete .none) := by
  simp only [exec, execMexp]
  exact (runCommand_of_canExecute h rfl (by simp [wideReads, sourceVs, sourcePts, usedSet, sourceConsts, modularChecks]) rfl
    (by simp [reducedReads, usedSet, modularChecks])).trans (by simp)

theorem exec_minv_ok (h : CanExecute (.minv m vd vs) s) :
    exec (.minv m vd vs) s = .next ((s.writeV vd (zextWide
      (montInv s.runBits (s.modSet m).m.toNat (s.readV vs).toNat))).complete .none) := by
  simp only [exec, execMinv]
  exact (runCommand_of_canExecute h rfl (by simp [wideReads, sourceVs, sourcePts, usedSet, sourceConsts, modularChecks]) rfl
    (by simp [reducedReads, usedSet, modularChecks])).trans (by simp)

theorem exec_pinf_ok (h : CanExecute (.pinf ptd) s) :
    exec (.pinf ptd) s = .next ((s.writePt ptd Point.infinity).complete .none) := by
  simp only [exec, execPinf]
  exact (runCommand_of_canExecute h rfl (by simp [wideReads, sourceVs, sourcePts, usedSet, sourceConsts]) rfl
    (by simp [reducedReads, usedSet])).trans (by simp)

theorem exec_pmov_ok (h : CanExecute (.pmov ptd pts) s) :
    exec (.pmov ptd pts) s = .next ((s.writePt ptd (s.readPt pts)).complete .none) := by
  simp only [exec, execPmov]
  exact (runCommand_of_canExecute h rfl (by simp [wideReads, sourceVs, sourcePts, usedSet, sourceConsts]) rfl
    (by simp [reducedReads, usedSet])).trans (by simp)

theorem exec_pget_ok (h : CanExecute (.pget vd pts c) s) :
    exec (.pget vd pts c) s = .next ((s.writeV vd ((s.readPt pts).coord c)).complete .none) := by
  simp only [exec, execPget]
  exact (runCommand_of_canExecute h rfl (by simp [wideReads, sourceVs, sourcePts, usedSet, sourceConsts]) rfl
    (by simp [reducedReads, usedSet])).trans (by simp)

theorem exec_pput_ok (h : CanExecute (.pput ptd vs c) s) :
    exec (.pput ptd vs c) s = .next ((s.writePt ptd ((s.readPt ptd).withCoord c (s.readV vs))).complete .none) := by
  simp only [exec, execPput]
  exact (runCommand_of_canExecute h rfl (by simp [wideReads, sourceVs, sourcePts, usedSet, sourceConsts]) rfl
    (by simp [reducedReads, usedSet])).trans (by simp)

theorem exec_pisinf_ok (h : CanExecute (.pisinf pts) s) :
    exec (.pisinf pts) s = .next ((s.setRes (decide ((s.readPt pts).z.toNat = 0))).complete .none) := by
  simp only [exec, execPisinf]
  exact (runCommand_of_canExecute h rfl (by simp [wideReads, sourceVs, sourcePts, usedSet, sourceConsts]) rfl
    (by simp [reducedReads, usedSet])).trans (by simp)

theorem exec_ponc_ok (h : CanExecute (.ponc pts) s) :
    exec (.ponc pts) s = .next ((s.setRes (onCurve s.field (s.readPt pts).triple)).complete .none) := by
  simp only [exec, execPonc]
  exact (runCommand_of_canExecute h rfl (by simp [wideReads, sourceVs, sourcePts, usedSet, sourceConsts, State.modSet]) rfl
    (by simp [reducedReads, usedSet])).trans (by simp)

theorem exec_pdbl_ok (h : CanExecute (.pdbl ptd pts) s) :
    exec (.pdbl ptd pts) s = .next ((s.writePt ptd (pointDbl s.field (s.readPt pts).triple).point).complete .none) := by
  simp only [exec, execPdbl]
  exact (runCommand_of_canExecute h rfl (by simp [wideReads, sourceVs, sourcePts, usedSet, sourceConsts, State.modSet]) rfl
    (by simp [reducedReads, usedSet])).trans (by simp)

theorem exec_padd_ok (h : CanExecute (.padd ptd pts pts1) s) :
    exec (.padd ptd pts pts1) s = .next ((s.writePt ptd
      (pointAdd s.field (s.readPt pts).triple (s.readPt pts1).triple).point).complete .none) := by
  simp only [exec, execPadd]
  exact (runCommand_of_canExecute h rfl (by simp [wideReads, sourceVs, sourcePts, usedSet, sourceConsts, State.modSet]) rfl
    (by simp [reducedReads, usedSet])).trans (by simp)

theorem exec_paff_ok (h : CanExecute (.paff ptd pts) s) :
    exec (.paff ptd pts) s = .next ((s.writePt ptd (toAffine s.field (s.readPt pts).triple).point).complete .none) := by
  simp only [exec, execPaff]
  exact (runCommand_of_canExecute h rfl (by simp [wideReads, sourceVs, sourcePts, usedSet, sourceConsts, State.modSet]) rfl
    (by simp [reducedReads, usedSet])).trans (by simp)

theorem exec_pmul_ok (h : CanExecute (.pmul ptd pts vs) s) :
    exec (.pmul ptd pts vs) s = .next ((s.writePt ptd (ladder s.field (s.readPt pts).triple (s.readV vs).toNat).point).complete .none) := by
  simp only [exec, execPmul]
  exact (runCommand_of_canExecute h rfl (by simp [wideReads, sourceVs, sourcePts, usedSet, sourceConsts, State.modSet]; tauto) rfl
    (by simp [reducedReads, usedSet])).trans (by simp)

end

end Sys2Proof.Machine
end

