-- ==== Sys2Proof/Laws/Window.lean ====
section
/-! SUPPORT. The limbs and the bytes of the register window (00_scope.md R9, 20_memory.md R63). -/

namespace Sys2Proof.Machine

/-- Limb `j` of a wide register as a value (00_scope.md R9). -/
theorem getLimb_toNat (r : Wide) (j : Nat) : (getLimb r j).toNat = limbValue r j := by
  simp [getLimb, limbValue, BitVec.extractLsb'_toNat, Nat.shiftRight_eq_div_pow]

/-- Byte `j` of a window word as a value (20_memory.md R63). -/
theorem wordByte_toNat (x : Limb) (j : Nat) :
    (wordByte x j).toNat = x.toNat / 2 ^ (8 * j) % 2 ^ 8 := by
  simp [wordByte, BitVec.extractLsb'_toNat, Nat.shiftRight_eq_div_pow]

/-- The bytes an 8-byte access moves are the bytes of its word (20_memory.md R63). -/
theorem wordByte_wordOfBytes (bs : Vector (BitVec 8) 8) (j : Fin 8) :
    wordByte (wordOfBytes bs) j = bs[j] := by
  fin_cases j <;> ext k hk <;>
    simp only [wordByte, wordOfBytes, BitVec.getElem_extractLsb', BitVec.getLsbD_append] <;>
    interval_cases k <;> simp

end Sys2Proof.Machine
end

