-- ==== Sys2Proof/Tests/Slice0.lean ====
section
/-! SUPPORT. Tests: well-formedness, one written-out word for each command, rejected words, one-step
results from 95_test_vectors.md, window accesses, the assembler and the host notation; and, for every
obligation with hypotheses, a witness that meets them. Every expected value is the spec's. -/

set_option Elab.async false

namespace Sys2Proof.Tests

open Sys2Proof.Machine

/-- The toy constants of 95_test_vectors.md section 2.1, everything else at reset. -/
def toy : State :=
  { State.reset with
    consts := ⟨97, 35, 14, 50, 47, 17⟩
    n0p := 0x5C5F02A3A0FD5C5F
    n0q := 0xAE4C415C9882B931 }

/-- The GOST field constants of 95_test_vectors.md section 2.2. -/
def gost : State :=
  { State.reset with
    consts := ⟨0x8000000000000000000000000000000000000000000000000000000000000431, 0x464584,
      0x7fffffffffffffffffffffffffffffffffffffffffffffffffffffffffffc983,
      0x58df983a171cd5ae20391abe272c66ad004469b4541a2542807bbfa323a3952a, 0, 0⟩
    n0p := 0xdbf951d5883b2b2f }

/-- The toy state at 512 bits. -/
def toyWide : State := { toy with ctrl := ⟨.w512, false⟩ }

/-- The base point of the toy curve, `(7, 24)` (95_test_vectors.md section 2.1). -/
def G : Point := ⟨39, 9, 61⟩

/-- A state with `a` in `V[1]` and `b` in `V[2]`. -/
def withVs (s : State) (a b : Wide) : State := (s.writeV 1 a).writeV 2 b

/-- The toy state with points in `PT[1]` and `PT[2]`. -/
def toyPts (P Q : Point) : State := (toy.writePt 1 P).writePt 2 Q

/-- The machine after one step in which the command `w` is run. -/
def ran (w : Limb) (s : State) : Option State :=
  match step (s.placeCommand w) with
  | .next t => some t
  | .fault _ => none
  | .refused _ => none

/-- The V register `f` and the error code after the command `w`. -/
def ranV (w : Limb) (f : VField) (s : State) : Option (Wide × ErrCode) :=
  (ran w s).map (fun t => (t.readV f, t.status.err))

/-- The point register `k` and the error code after the command `w`. -/
def ranPt (w : Limb) (k : PtField) (s : State) : Option (Point × ErrCode) :=
  (ran w s).map (fun t => (t.readPt k, t.status.err))

/-- `STATUS` after the command `w`. -/
def ranStatus (w : Limb) (s : State) : Option Limb := (ran w s).map State.statusWord

/-- The toy state with MMUL accepted and not yet run. -/
def busyToy : State := toy.accept 0x20003120

/-! ### Well-formedness (30_encoding.md R92, R97): an ill-formed command for each check -/

theorem test_illformed_pinf_ptd : wellFormed (.pinf 4) = false := by decide

theorem test_illformed_pmov_ptd : wellFormed (.pmov 4 0) = false := by decide

theorem test_illformed_pmov_pts : wellFormed (.pmov 0 4) = false := by decide

theorem test_illformed_pget_pts : wellFormed (.pget 0 4 0) = false := by decide

theorem test_illformed_pget_c : wellFormed (.pget 0 0 3) = false := by decide

theorem test_illformed_pput_ptd : wellFormed (.pput 4 0 0) = false := by decide

theorem test_illformed_pput_c : wellFormed (.pput 0 0 3) = false := by decide

theorem test_illformed_pisinf_pts : wellFormed (.pisinf 4) = false := by decide

theorem test_illformed_ponc_pts : wellFormed (.ponc 15) = false := by decide

theorem test_illformed_pdbl_ptd : wellFormed (.pdbl 4 0) = false := by decide

theorem test_illformed_pdbl_pts : wellFormed (.pdbl 0 4) = false := by decide

theorem test_illformed_padd_ptd : wellFormed (.padd 4 0 0) = false := by decide

theorem test_illformed_padd_pts1 : wellFormed (.padd 0 4 0) = false := by decide

theorem test_illformed_padd_pts2 : wellFormed (.padd 0 0 4) = false := by decide

theorem test_illformed_paff_ptd : wellFormed (.paff 4 0) = false := by decide

theorem test_illformed_paff_pts : wellFormed (.paff 0 4) = false := by decide

theorem test_illformed_pmul_ptd : wellFormed (.pmul 4 0 0) = false := by decide

theorem test_illformed_pmul_pts : wellFormed (.pmul 0 4 0) = false := by decide

theorem test_wellformed_limits :
    wellFormed (.pget 15 3 2) = true ∧ wellFormed (.padd 3 3 3) = true :=
  by decide

/-! ### One word of each command, field by field: OPC, M, 0, RD, RS1, RS2, 0 (30_encoding.md R91, R95) -/

theorem test_decode_nop : decode 0b000000_0_000000000_0000_0000_0000_0000#64 = .ok .nop :=
  by decide +kernel

theorem test_decode_mov : decode 0b000001_0_000000000_0011_0001_0000_0000#64 = .ok (.mov 3 1) :=
  by decide +kernel

theorem test_decode_icmp : decode 0b000010_0_000000000_0000_0001_0010_0000#64 = .ok (.icmp 1 2) :=
  by decide +kernel

theorem test_decode_mmul :
    decode 0b001000_1_000000000_0011_0001_0010_0000#64 = .ok (.mmul .q 3 1 2) :=
  by decide +kernel

theorem test_decode_madd :
    decode 0b001001_0_000000000_1111_1110_1101_0000#64 = .ok (.madd .p 15 14 13) :=
  by decide +kernel

theorem test_decode_msub :
    decode 0b001010_1_000000000_0101_0001_0010_0000#64 = .ok (.msub .q 5 1 2) :=
  by decide +kernel

theorem test_decode_mdbl : decode 0b001011_0_000000000_0110_1001_0000_0000#64 = .ok (.mdbl .p 6 9) :=
  by decide +kernel

theorem test_decode_tomont :
    decode 0b001100_1_000000000_0010_0001_0000_0000#64 = .ok (.tomont .q 2 1) :=
  by decide +kernel

theorem test_decode_frommont :
    decode 0b001101_0_000000000_0011_1000_0000_0000#64 = .ok (.frommont .p 3 8) :=
  by decide +kernel

theorem test_decode_mexp :
    decode 0b001110_1_000000000_0011_0001_0010_0000#64 = .ok (.mexp .q 3 1 2) :=
  by decide +kernel

theorem test_decode_minv : decode 0b001111_0_000000000_0011_0010_0000_0000#64 = .ok (.minv .p 3 2) :=
  by decide +kernel

theorem test_decode_pinf : decode 0b010000_0_000000000_0010_0000_0000_0000#64 = .ok (.pinf 2) :=
  by decide +kernel

theorem test_decode_pmov : decode 0b010001_0_000000000_0000_0001_0000_0000#64 = .ok (.pmov 0 1) :=
  by decide +kernel

theorem test_decode_pget : decode 0b010010_0_000000000_0101_0001_0001_0000#64 = .ok (.pget 5 1 1) :=
  by decide +kernel

theorem test_decode_pput : decode 0b010011_0_000000000_0001_1001_0010_0000#64 = .ok (.pput 1 9 2) :=
  by decide +kernel

theorem test_decode_pisinf : decode 0b010100_0_000000000_0000_0011_0000_0000#64 = .ok (.pisinf 3) :=
  by decide +kernel

theorem test_decode_ponc : decode 0b010101_0_000000000_0000_0001_0000_0000#64 = .ok (.ponc 1) :=
  by decide +kernel

theorem test_decode_pdbl : decode 0b010110_0_000000000_0010_0001_0000_0000#64 = .ok (.pdbl 2 1) :=
  by decide +kernel

theorem test_decode_padd : decode 0b010111_0_000000000_0011_0001_0010_0000#64 = .ok (.padd 3 1 2) :=
  by decide +kernel

theorem test_decode_paff : decode 0b011000_0_000000000_0010_0011_0000_0000#64 = .ok (.paff 2 3) :=
  by decide +kernel

theorem test_decode_pmul : decode 0b011001_0_000000000_0001_0010_1100_0000#64 = .ok (.pmul 1 2 12) :=
  by decide +kernel

/-! ### Rejected words (30_encoding.md R96, R97; 95_test_vectors.md X1 to X12) -/

theorem test_reject_x1 : decode 0x0C000000#64 = .error .illegalOpcode := by decide +kernel

theorem test_reject_x2 : decode 0x68000000#64 = .error .illegalOpcode := by decide +kernel

theorem test_reject_x3 : decode 0xFC000000#64 = .error .illegalOpcode := by decide +kernel

theorem test_reject_x4 : decode 0x20013120#64 = .error .reservedField := by decide +kernel

theorem test_reject_x5 : decode 0x20003121#64 = .error .reservedField := by decide +kernel

theorem test_reject_x6 : decode 0x04003110#64 = .error .reservedField := by decide +kernel

theorem test_reject_x7 : decode 0x08001120#64 = .error .reservedField := by decide +kernel

theorem test_reject_x8 : decode 0x5A000100#64 = .error .reservedField := by decide +kernel

theorem test_reject_x9 : decode 0x58000400#64 = .error .reservedField := by decide +kernel

theorem test_reject_x10 : decode 0x48003130#64 = .error .reservedField := by decide +kernel

theorem test_reject_x11 : decode 0x0000000100000000#64 = .error .reservedField := by decide +kernel

theorem test_reject_x12 : decode 0x0C000001#64 = .error .illegalOpcode := by decide +kernel

theorem test_table_word_mmul : decodeTableWord 32 0x20003120 = some (.mmul .p 3 1 2) :=
  by decide +kernel

/-! ### One step of each command (95_test_vectors.md section 3) -/

theorem test_nop_h3 : busyToy.statusWord = 0x001 ∧ ranStatus 0x00000000 State.reset = some 0x002 :=
  by decide +kernel

theorem test_mov_s3_wide :
    ranV 0x04003100 3 (toyWide.writeV 1 (1#512 <<< 300)) = some (1#512 <<< 300, .none) :=
  by decide +kernel

theorem test_mov_s4_size : ranV 0x04003100 3 (toy.writeV 1 (1#512 <<< 300)) = some (0, .size) :=
  by decide +kernel

theorem test_icmp_s5 : ranStatus 0x08000120 (withVs toy 5 7) = some 0x102 := by decide +kernel

theorem test_icmp_s8_unsigned :
    ranStatus 0x08000120 (withVs toy (BitVec.ofNat 512 (2 ^ 256 - 1)) 0) = some 0x002 :=
  by decide +kernel

theorem test_mmul_m6_set_q : ranV 0x22003120 3 (withVs toy 24 40) = some (26, .none) :=
  by decide +kernel

theorem test_mmul_m9_wide : ranV 0x20003120 3 (withVs toyWide 86 14) = some (15, .none) :=
  by decide +kernel

theorem test_madd_g1_carry :
    ranV 0x24003120 3 (withVs gost
      0x8000000000000000000000000000000000000000000000000000000000000430
      0x8000000000000000000000000000000000000000000000000000000000000430) = some (
      0x800000000000000000000000000000000000000000000000000000000000042f, .none) :=
  by decide +kernel

theorem test_madd_m17c_wraps : ranV 0x24003120 3 (withVs toy 96 1) = some (0, .none) :=
  by decide +kernel

theorem test_msub_m18_borrow : ranV 0x28003120 3 (withVs toy 3 5) = some (95, .none) :=
  by decide +kernel

theorem test_msub_m19a : ranV 0x28003120 3 (withVs toy 0 96) = some (1, .none) := by decide +kernel

theorem test_mdbl_g4_top_bit :
    ranV 0x2C003100 3 (gost.writeV 1
      0x8000000000000000000000000000000000000000000000000000000000000430) = some (
      0x800000000000000000000000000000000000000000000000000000000000042f, .none) :=
  by decide +kernel

theorem test_mdbl_m21 : ranV 0x2C003100 3 (toy.writeV 1 48) = some (96, .none) := by decide +kernel

theorem test_tomont_m12 :
    ranV 0x30003100 3 (toy.writeV 1 (BitVec.ofNat 512 (2 ^ 256 - 1))) = some (71, .none) :=
  by decide +kernel

theorem test_tomont_m11 : ranV 0x30003100 3 (toy.writeV 1 200) = some (75, .none) :=
  by decide +kernel

theorem test_frommont_m16a : ranV 0x34003100 3 (toy.writeV 1 200) = some (16, .none) :=
  by decide +kernel

theorem test_frommont_g8 :
    ranV 0x34003100 3 (gost.writeV 1 2) = some (
      0x7003d13cd6b99e2e4901ab8a9df135343ff0bb0ca5198746dbf951d5883b2eda, .none) :=
  by decide +kernel

theorem test_mexp_e3_zero_to_zero : ranV 0x38003120 3 (withVs toy 0 0) = some (61, .none) :=
  by decide +kernel

theorem test_mexp_e7 : ranV 0x38003120 3 (withVs toy 86 200) = some (96, .none) := by decide +kernel

theorem test_minv_e11_set_q : ranV 0x3E003100 3 (toy.writeV 1 24) = some (34, .none) :=
  by decide +kernel

theorem test_minv_e9_zero : ranV 0x3C003100 3 (toy) = some (0, .none) := by decide +kernel

theorem test_pinf_s9 : ranPt 0x40002000 2 (toy.writePt 2 ⟨5, 5, 5⟩) = some (⟨0, 1, 0⟩, .none) :=
  by decide +kernel

theorem test_pmov_s10 : ranPt 0x44000100 0 (toy.writePt 1 G) = some (⟨39, 9, 61⟩, .none) :=
  by decide +kernel

theorem test_pget_s11 : ranV 0x48005110 5 (toy.writePt 1 G) = some (9, .none) := by decide +kernel

theorem test_pput_s12 : ranPt 0x4C000220 0 (toy.writeV 2 77) = some (⟨0, 0, 77⟩, .none) :=
  by decide +kernel

theorem test_pisinf_s14 : ranStatus 0x50000100 (toy.writePt 1 ⟨3, 4, 0⟩) = some 0x402 :=
  by decide +kernel

theorem test_pisinf_s15 : ranStatus 0x50000100 (toy.writePt 1 ⟨39, 9, 97⟩) = some 0x002 :=
  by decide +kernel

theorem test_ponc_t1 : ranStatus 0x54000100 (toy.writePt 1 G) = some 0x402 := by decide +kernel

theorem test_ponc_t2 : ranStatus 0x54000100 (toy.writePt 1 ⟨39, 70, 61⟩) = some 0x002 :=
  by decide +kernel

theorem test_pdbl_t6 : ranPt 0x58000100 0 (toy.writePt 1 G) = some (⟨67, 14, 53⟩, .none) :=
  by decide +kernel

theorem test_pdbl_t8_order_two :
    ranPt 0x58000100 0 (toy.writePt 1 ⟨40, 0, 61⟩) = some (⟨0, 1, 0⟩, .none) :=
  by decide +kernel

theorem test_padd_t10 : ranPt 0x5C000120 0 (toyPts G ⟨67, 14, 53⟩) = some (⟨53, 85, 56⟩, .none) :=
  by decide +kernel

theorem test_padd_t11 : ranPt 0x5C000120 0 (toyPts ⟨67, 14, 53⟩ G) = some (⟨44, 12, 41⟩, .none) :=
  by decide +kernel

theorem test_paff_t19 :
    ranPt 0x60000100 0 (toy.writePt 1 ⟨53, 85, 56⟩) = some (⟨56, 77, 61⟩, .none) :=
  by decide +kernel

theorem test_paff_t20 : ranPt 0x60000100 0 (toy.writePt 1 ⟨5, 6, 0⟩) = some (⟨0, 1, 0⟩, .none) :=
  by decide +kernel

theorem test_pmul_l5 :
    ranPt 0x64000140 0 ((toy.writePt 1 G).writeV 4 46) = some (⟨35, 74, 5⟩, .none) :=
  by decide +kernel

theorem test_pmul_l11 :
    ranPt 0x64000140 0 ((toy.writePt 1 ⟨0, 5, 0⟩).writeV 4 5) = some (⟨0, 1, 0⟩, .none) :=
  by decide +kernel

/-! ### The order of the checks (95_test_vectors.md X13 to X17) -/

theorem test_check_x13 :
    ranV 0x20003121 3 (toy.writeV 1 (1#512 <<< 300)) = some (0, .reservedField) :=
  by decide +kernel

theorem test_check_x14 :
    ranV 0x20003120 3 (({ toy with n0p := 0 }).writeV 1 (1#512 <<< 300)) = some (0, .size) :=
  by decide +kernel

theorem test_check_x15 :
    ranV 0x20003120 3 (({ toy with n0p := 0 }).writeV 1 97) = some (0, .badModulus) :=
  by decide +kernel

theorem test_check_x16 :
    ranV 0x20003120 3 ({ toy with consts := { toy.consts with p := 96 } }) = some (0, .badModulus) :=
  by decide +kernel

theorem test_check_x17 :
    ranV 0x20003120 3 ({ toy with consts := { toy.consts with p := 1 }, n0p := 0xFFFFFFFFFFFFFFFF }) = some (0, .badModulus) :=
  by decide +kernel

/-! ### The register window (95_test_vectors.md H1 to H18) -/

theorem test_h1_id : (State.reset.hostRead 0x000 8).reply = some (.data 0x000000014D4D4543 false) :=
  by decide +kernel

theorem test_h4_cmd_while_busy :
    (let t := busyToy.hostWrite 0x018 8 0; (t.status.ovr, t.pending, t.cmdLast)) =
      (true, busyToy.pending, 0x20003120) :=
  by decide +kernel

theorem test_h5_data_while_busy :
    (let t := busyToy.hostWrite 0x140 8 7; (t.status.ovr, t.v)) = (true, busyToy.v) :=
  by decide +kernel

theorem test_h6_read_while_busy :
    ((busyToy.writeV 3 5).hostRead 0x1C0 8).reply = some (.data 0 false) :=
  by decide +kernel

theorem test_h7_narrow_read :
    (let t := toy.hostRead 0x010 4; (t.status.busErr, t.reply)) =
      (true, some (.data 0 Config.busErrorSignal)) :=
  by rfl

theorem test_h8_misaligned_write :
    (let t := toy.hostWrite 0x104 8 7; (t.status.busErr, t.v)) = (true, toy.v) :=
  by decide +kernel

theorem test_h9_reserved :
    (toy.hostRead 0x030 8).reply = some (.data 0 false) ∧ (toy.hostWrite 0xFF8 8 5).status = toy.status :=
  by decide +kernel
/-- The status of row H11: DONE, ERR = 5, EQ and RES. -/
def statusH11 : State :=
  { toy with status := ⟨true, false, false, .unreduced, false, true, true⟩ }

theorem test_h11_status_write :
    statusH11.statusWord = 0x652 ∧ (statusH11.hostWrite 0x010 8 0x1F1).statusWord = 0x652 :=
  by decide +kernel

theorem test_h10_status_write :
    (({ toy with status := ⟨true, true, true, .none, false, false, false⟩ } : State).hostWrite
      0x010 8 0xE).statusWord = 0x000 :=
  by decide +kernel

theorem test_h12_irq : (ran 0 (toy.hostWrite 0x008 8 2)).map State.irq = some true :=
  by decide +kernel

theorem test_h14_soft_reset :
    busyToy.hostWrite 0x008 8 4 = { State.reset with reply := some (.written false) } :=
  by decide +kernel

theorem test_h15_soft_reset_ignores_fields : (busyToy.hostWrite 0x008 8 7).ctrlWord = 0 :=
  by decide +kernel

theorem test_h16_size_is_latched :
    (match engineStep (((withVs toy 86 14).accept 0x20003120).hostWrite 0x008 8 1) with
      | .next t => t.readV 3
      | .fault _ => 0
      | .refused _ => 0) = 42 :=
  by decide +kernel

theorem test_h17_byte :
    (toy.hostWrite 0x140 8 0x0123456789ABCDEF).windowByte 0x140 = 0xEF ∧
      (toy.hostWrite 0x140 8 0x0123456789ABCDEF).windowByte 0x147 = 0x01 :=
  by decide +kernel

theorem test_write_bytes :
    Event.writeBytes 0x140 #v[0xEF, 0xCD, 0xAB, 0x89, 0x67, 0x45, 0x23, 0x01] =
      .write 0x140 8 0x0123456789ABCDEF :=
  by decide +kernel

theorem test_h18_error_keeps_flags : ranStatus 0x0C000000 (toy.setCompareFlags 1 2) = some 0x112 :=
  by decide +kernel

theorem test_window_edges :
    addrDecode 0x4F8 = .v 15 7 ∧ addrDecode 0x500 = .pt 0 0 0 ∧ addrDecode 0x7F8 = .pt 3 2 7 ∧
      addrDecode 0x800 = .const .p 0 ∧ addrDecode 0x978 = .const .r2q 7 ∧ addrDecode 0x980 = .reserved :=
  by decide +kernel

/-! ### The assembler and the host notation (30_encoding.md R102 to R104) -/

theorem test_asm_text :
    asmText (.mmul .q 3 1 2) = "MMUL.Q v3, v1, v2" ∧ asmText (.pget 5 1 1) = "PGET v5, pt1, y" :=
  by decide +kernel

theorem test_pseudo_pchkord : expandPseudo (.pchkord 1 0 1) = [.pmul 1 0 1, .pisinf 1] := by decide

theorem test_goto_first_label : labelLine [.label "a", .label "b", .label "a"] "a" = some 0 :=
  by decide +kernel

theorem test_goto_taken :
    (hostLineStep [.gotoIf "end" .eq 0, .command 0, .label "end"] ⟨0, toy⟩).map HostRun.line = some 2 :=
  by decide +kernel

/-! ### Witnesses: states and operands that meet the hypotheses of the obligations -/

/-- A command can execute on a state: `Validate` on the spec's lists answers 0. -/
theorem can {i : Instr} {s : State}
    (h : validate s.runWidth
      ⟨wellFormed i, wideReads i s, (usedSet i).map s.modSet, reducedReads i s⟩ = .none) :
    CanExecute i s :=
  (canExecute_iff_validate i s).mpr h

/-- The next state of an outcome. -/
def nextOf : Host.Outcome State Fault Refusal → Option State
  | .next t => some t
  | .fault _ => none
  | .refused _ => none

/-- An outcome with a next state is that next state. -/
theorem isNext {o : Host.Outcome State Fault Refusal} {t : State} (h : nextOf o = some t) :
    o = .next t := by
  cases o <;> simp_all [nextOf]

theorem witness_DecodeOfEncodeIsTheCommand :
    wellFormed (.pget 15 3 2) = true ∧ wellFormed (.pmul 3 3 15) = true :=
  by decide

theorem witness_AcceptedWordsEncodeBack : decode 0x00000000640033F0#64 = .ok (.pmul 3 3 15) :=
  by decide +kernel
/-- The opcode of a value written to `CMD`. -/
def opOf (w : Limb) : Nat := w.toNat / 2 ^ 26 % 64

theorem witness_ReservedOpcodesFail_limits :
    opOf 0x0C000000 = 3 ∧ opOf 0x1C000000 = 7 ∧ opOf 0x68000000 = 0x1A ∧ opOf 0xFC000000 = 0x3F :=
  by decide +kernel

theorem witness_ReservedFieldsFail_high :
    let w := 0x0000000100000000#64; opOf w = 0 ∧ w.toNat / 2 ^ 32 ≠ 0 :=
  by decide +kernel

theorem witness_ReservedFieldsFail_res1 :
    let w := 0x0000000064010000#64; opOf w = 0x19 ∧ w.toNat / 2 ^ 16 % 512 ≠ 0 :=
  by decide +kernel

theorem witness_ReservedFieldsFail_res0 :
    let w := 0x0000000020000008#64; opOf w = 8 ∧ w.toNat % 16 ≠ 0 :=
  by decide +kernel

theorem witness_ReservedFieldsFail_m_low :
    let w := 0x000000000A000000#64; opOf w = 2 ∧ w.toNat / 2 ^ 25 % 2 = 1 :=
  by decide +kernel

theorem witness_ReservedFieldsFail_m_high :
    let w := 0x0000000042000000#64; opOf w = 0x10 ∧ w.toNat / 2 ^ 25 % 2 = 1 :=
  by decide +kernel

theorem witness_ReservedFieldsFail_rd :
    let w := 0x0000000054001000#64; opOf w = 0x15 ∧ w.toNat / 2 ^ 12 % 16 ≠ 0 :=
  by decide +kernel

theorem witness_ReservedFieldsFail_rs1 :
    let w := 0x0000000040000100#64; opOf w = 0x10 ∧ w.toNat / 2 ^ 8 % 16 ≠ 0 :=
  by decide +kernel

theorem witness_ReservedFieldsFail_rs2 :
    let w := 0x0000000060000010#64; opOf w = 0x18 ∧ w.toNat / 2 ^ 4 % 16 ≠ 0 :=
  by decide +kernel

theorem witness_ReservedFieldsFail_ptd :
    let w := 0x0000000064004000#64; opOf w = 0x19 ∧ w.toNat / 2 ^ 12 % 16 = 4 :=
  by decide +kernel

theorem witness_ReservedFieldsFail_pts1 :
    let w := 0x0000000048000400#64; opOf w = 0x12 ∧ w.toNat / 2 ^ 8 % 16 = 4 :=
  by decide +kernel

theorem witness_ReservedFieldsFail_pts2 :
    let w := 0x000000005C000040#64; opOf w = 0x17 ∧ w.toNat / 2 ^ 4 % 16 = 4 :=
  by decide +kernel

theorem witness_ReservedFieldsFail_coord :
    let w := 0x000000004C000030#64; opOf w = 0x13 ∧ w.toNat / 2 ^ 4 % 16 = 3 :=
  by decide +kernel

theorem witness_ReservedFieldsFail_none :
    let w := 0x000000004C003020#64
    opOf w = 0x13 ∧ w.toNat / 2 ^ 32 = 0 ∧ w.toNat / 2 ^ 16 % 512 = 0 ∧ w.toNat % 16 = 0 ∧
      w.toNat / 2 ^ 25 % 2 = 0 ∧ w.toNat / 2 ^ 12 % 16 = 3 ∧ w.toNat / 2 ^ 4 % 16 = 2 :=
  by decide +kernel

/-- The toy state with MADD accepted, no slot for the engine listed. -/
def pendingToy : State := (withVs toy 50 60).accept 0x24003120

theorem witness_StepCompletesThePendingCommand_command :
    pendingToy.pending = some ⟨0x24003120, .w256⟩ ∧ decode 0x24003120 = .ok (.madd .p 3 1 2) ∧
      pendingToy.inbox = [] ∧ (toy.placeCommand 0x24003120).inbox = [.engine] :=
  by decide +kernel

theorem witness_StepCompletesThePendingCommand_rejected :
    let s := toy.accept 0x0C000000
    s.pending = some ⟨0x0C000000, .w256⟩ ∧ decode 0x0C000000 = .error .illegalOpcode ∧ s.inbox = [] :=
  by decide +kernel

theorem witness_StepCompletesThePendingCommand_idle : toy.pending = none ∧ toy.inbox = [] :=
  by decide +kernel

theorem witness_StepCompletesThePendingCommand_event :
    ({ busyToy with inbox := [.hardReset, .engine] } : State).inbox = [.hardReset, .engine] :=
  by rfl

theorem witness_StepCompletesThePendingCommand_placed :
    decode (tableWord 32 0x24003120) = .ok (.madd .p 3 1 2) :=
  by decide +kernel

theorem witness_ResetLeavesEveryRegisterAtItsValue : (0x7#64 : Limb).getLsbD 2 = true := by decide

theorem witness_StepKeepsTheInvariant :
    pendingToy.Inv ∧ step pendingToy = .next ((pendingToy.writeV 3 13).complete .none) :=
  ⟨by decide +kernel, isNext (by decide +kernel)⟩

/-- The state after an illegal opcode, with LT set before. -/
def afterError : State := ((toy.setCompareFlags 1 2).accept 0x0C000000).complete .illegalOpcode

theorem witness_ErrorsHaveNoOtherEffect :
    completeWord 0x0C000000 ((toy.setCompareFlags 1 2).accept 0x0C000000) = .next afterError ∧
      afterError.status.err ≠ .none :=
  ⟨isNext (by decide +kernel), by decide⟩

theorem witness_ErrorCodeIsTheFirstFailedCheck_fields : wellFormed (.pget 0 0 3) = false :=
  by decide

theorem witness_ErrorCodeIsTheFirstFailedCheck_size :
    wellFormed (.mov 3 1) = true ∧ ¬ SizeHolds (.mov 3 1) (toy.writeV 1 (1#512 <<< 256)) :=
  ⟨by decide, by rw [sizeHolds_iff]; decide +kernel⟩

theorem witness_ErrorCodeIsTheFirstFailedCheck_size_limit :
    SizeHolds (.mov 3 1) (toy.writeV 1 (BitVec.ofNat 512 (2 ^ 256 - 1))) :=
  by rw [sizeHolds_iff]; decide +kernel

theorem witness_ErrorCodeIsTheFirstFailedCheck_modulus :
    let s := { withVs toy 1 1 with n0p := 0 }
    wellFormed (.mmul .p 3 1 2) = true ∧ SizeHolds (.mmul .p 3 1 2) s ∧ ¬ ModulusHolds (.mmul .p 3 1 2) s :=
  ⟨by decide, by rw [sizeHolds_iff]; decide +kernel, by rw [modulusHolds_iff]; decide +kernel⟩

theorem witness_ErrorCodeIsTheFirstFailedCheck_reduced :
    let s := withVs toy 97 1
    wellFormed (.mmul .p 3 1 2) = true ∧ SizeHolds (.mmul .p 3 1 2) s ∧
      ModulusHolds (.mmul .p 3 1 2) s ∧ ¬ ReducedHolds (.mmul .p 3 1 2) s :=
  ⟨by decide, by rw [sizeHolds_iff]; decide +kernel, by rw [modulusHolds_iff]; decide +kernel,
    by rw [reducedHolds_iff]; decide +kernel⟩

theorem witness_CommandsWriteOnlyTheirDestination :
    exec (.madd .p 3 1 2) pendingToy = .next ((pendingToy.writeV 3 13).complete .none) ∧
      destV (.madd .p 3 1 2) ≠ some 4 ∧ destPt (.madd .p 3 1 2) = none :=
  ⟨isNext (by decide +kernel), by decide, by decide⟩

theorem witness_CommandsWriteOnlyTheirDestination_point :
    destPt (.pinf 2) = some 2 ∧ ptIndex 1 ≠ ptIndex 2 :=
  by decide

theorem witness_OnlyTheFlagCommandsWriteFlags :
    exec (.madd .p 3 1 2) pendingToy = .next ((pendingToy.writeV 3 13).complete .none) ∧
      (∀ a b, Instr.madd .p 3 1 2 ≠ .icmp a b) ∧ (∀ k, Instr.madd .p 3 1 2 ≠ .pisinf k) ∧
      (∀ k, Instr.madd .p 3 1 2 ≠ .ponc k) :=
  ⟨isNext (by decide +kernel), nofun, nofun, nofun⟩

theorem witness_OnlyTheFlagCommandsWriteFlags_error :
    exec (.icmp 1 2) (toy.writeV 1 (1#512 <<< 300)) = .next ((toy.writeV 1 (1#512 <<< 300)).complete .size) ∧
      ((toy.writeV 1 (1#512 <<< 300)).complete .size).status.err ≠ .none :=
  ⟨isNext (by decide +kernel), by decide⟩

theorem witness_NarrowResultsAreZeroExtended :
    pendingToy.runWidth = .w256 ∧
      exec (.madd .p 3 1 2) pendingToy = .next ((pendingToy.writeV 3 13).complete .none) ∧
      ((pendingToy.writeV 3 13).complete .none).status.err = .none :=
  ⟨by decide, isNext (by decide +kernel), by decide⟩

theorem witness_NarrowResultsAreZeroExtended_point :
    (toyPts G G).runWidth = .w256 ∧ destPt (.pdbl 0 1) = some 0 ∧
      (∀ a b c, Instr.pdbl 0 1 ≠ .pput a b c) ∧
      exec (.pdbl 0 1) (toyPts G G) =
        .next (((toyPts G G).writePt 0 ⟨67, 14, 53⟩).complete .none) ∧
      (((toyPts G G).writePt 0 ⟨67, 14, 53⟩).complete .none).status.err = .none :=
  ⟨by decide, by decide, nofun, isNext (by decide +kernel), by decide⟩

/-- The toy state with a point in `PT[0]`, whose wide coordinates a PPUT of another one leaves. -/
def widePt (P : Point) : State := (toy.writeV 2 77).writePt 0 P

theorem witness_NarrowResultsAreZeroExtended_pput_x :
    (widePt ⟨9, 1#512 <<< 300, 5⟩).runWidth = .w256 ∧
      exec (.pput 0 2 0) (widePt ⟨9, 1#512 <<< 300, 5⟩) =
        .next (((widePt ⟨9, 1#512 <<< 300, 5⟩).writePt 0 ⟨77, 1#512 <<< 300, 5⟩).complete .none) :=
  ⟨by decide, isNext (by decide +kernel)⟩

theorem witness_NarrowResultsAreZeroExtended_pput_y :
    (widePt ⟨1#512 <<< 300, 9, 5⟩).runWidth = .w256 ∧
      exec (.pput 0 2 1) (widePt ⟨1#512 <<< 300, 9, 5⟩) =
        .next (((widePt ⟨1#512 <<< 300, 9, 5⟩).writePt 0 ⟨1#512 <<< 300, 77, 5⟩).complete .none) :=
  ⟨by decide, isNext (by decide +kernel)⟩

theorem witness_NarrowResultsAreZeroExtended_pput_z :
    (widePt ⟨1#512 <<< 300, 5, 9⟩).runWidth = .w256 ∧
      exec (.pput 0 2 2) (widePt ⟨1#512 <<< 300, 5, 9⟩) =
        .next (((widePt ⟨1#512 <<< 300, 5, 9⟩).writePt 0 ⟨1#512 <<< 300, 5, 77⟩).complete .none) :=
  ⟨by decide, isNext (by decide +kernel)⟩

theorem witness_MovCopiesTheRegister :
    CanExecute (.mov 3 3) (toy.writeV 3 (BitVec.ofNat 512 (2 ^ 256 - 1))) :=
  can (by decide +kernel)

theorem witness_MovCopiesTheRegister_wide :
    CanExecute (.mov 0 15) (toyWide.writeV 15 (BitVec.allOnes 512)) :=
  can (by decide +kernel)

theorem witness_IcmpComparesUnsigned_less :
    CanExecute (.icmp 1 2) (withVs toyWide 5 (BitVec.allOnes 512)) :=
  can (by decide +kernel)

theorem witness_IcmpComparesUnsigned_equal : CanExecute (.icmp 1 1) (withVs toy 7 7) :=
  can (by decide +kernel)

theorem witness_MmulIsTheMontgomeryProduct : CanExecute (.mmul .p 3 1 2) (withVs toy 96 96) :=
  can (by decide +kernel)

theorem witness_MmulIsTheMontgomeryProduct_set_q :
    CanExecute (.mmul .q 3 1 2) (withVs toyWide 46 0) :=
  can (by decide +kernel)

theorem witness_MaddIsTheModularSum : CanExecute (.madd .p 3 1 2) (withVs toy 96 1) :=
  can (by decide +kernel)

theorem witness_MsubIsTheModularDifference : CanExecute (.msub .q 3 1 2) (withVs toy 0 46) :=
  can (by decide +kernel)

theorem witness_MdblIsTheModularDouble : CanExecute (.mdbl .p 3 1) (withVs toy 49 0) :=
  can (by decide +kernel)

theorem witness_TomontEntersMontgomeryForm :
    CanExecute (.tomont .p 3 1) (withVs toy (BitVec.ofNat 512 (2 ^ 256 - 1)) 0) :=
  can (by decide +kernel)

theorem witness_TomontEntersMontgomeryForm_r2 :
    ((toy.modSet .p).r2.toNat = 2 ^ (2 * toy.runBits) % (toy.modSet .p).m.toNat) :=
  by decide +kernel

theorem witness_FrommontLeavesMontgomeryForm : CanExecute (.frommont .q 3 1) (withVs toy 200 0) :=
  can (by decide +kernel)

theorem witness_FrommontUndoesTomont :
    CanExecute (.tomont .p 3 1) (withVs toy 200 0) ∧
      (withVs toy 200 0).runWidth = (withVs toy 200 0).ctrl.size ∧
      ((withVs toy 200 0).modSet .p).r2.toNat =
        2 ^ (2 * (withVs toy 200 0).runBits) % ((withVs toy 200 0).modSet .p).m.toNat ∧
      exec (.tomont .p 3 1) (withVs toy 200 0) =
        .next (((withVs toy 200 0).writeV 3 75).complete .none) :=
  ⟨can (by decide +kernel), by decide, by decide +kernel, isNext (by decide +kernel)⟩

theorem witness_ReductionAlgorithmGivesTheProduct :
    SetIsValid (toy.modSet .p) ∧
      (2 ^ 256 - 1) * 96 < 2 ^ Width.w256.bits * (toy.modSet .p).m.toNat :=
  by decide +kernel

theorem witness_MexpIsTheModularPower :
    CanExecute (.mexp .p 3 1 2) (withVs toy 86 (BitVec.ofNat 512 (2 ^ 256 - 1))) :=
  can (by decide +kernel)

theorem witness_MexpIsTheModularPower_zero : CanExecute (.mexp .q 3 1 2) (withVs toy 0 0) :=
  can (by decide +kernel)

theorem witness_MinvIsTheFermatInverse : CanExecute (.minv .p 3 1) (withVs toy 86 0) :=
  can (by decide +kernel)

theorem witness_MinvIsTheFermatInverse_zero : CanExecute (.minv .q 3 1) (withVs toy 0 0) :=
  can (by decide +kernel)
/-- The prime of the toy curve, for the clauses over a prime modulus. -/

theorem witness_toy_prime : toy.consts.p.toNat.Prime :=
  by
  have h : toy.consts.p.toNat = 97 := by decide +kernel
  rw [h]
  norm_num

theorem witness_MinvIsTheFermatInverse_prime :
    ((withVs toy 86 0).modSet .p).m.toNat.Prime ∧ (withVs toy 86 0).readV 1 ≠ 0 :=
  ⟨witness_toy_prime, by decide +kernel⟩

theorem witness_PinfWritesCanonicalInfinity : CanExecute (.pinf 3) (toy) := can (by decide +kernel)

theorem witness_PmovCopiesThePoint : CanExecute (.pmov 3 1) (toyPts G G) := can (by decide +kernel)

theorem witness_PgetCopiesOneCoordinate_x : CanExecute (.pget 5 1 0) (toyPts G G) :=
  can (by decide +kernel)

theorem witness_PputWritesOneCoordinate_x : CanExecute (.pput 0 2 0) (toy.writeV 2 77) :=
  can (by decide +kernel)

theorem witness_PgetCopiesOneCoordinate_y : CanExecute (.pget 5 1 1) (toyPts G G) :=
  can (by decide +kernel)

theorem witness_PputWritesOneCoordinate_y : CanExecute (.pput 0 2 1) (toy.writeV 2 77) :=
  can (by decide +kernel)

theorem witness_PgetCopiesOneCoordinate_z : CanExecute (.pget 5 1 2) (toyPts G G) :=
  can (by decide +kernel)

theorem witness_PputWritesOneCoordinate_z : CanExecute (.pput 0 2 2) (toy.writeV 2 77) :=
  can (by decide +kernel)

theorem witness_PisinfTestsZ_infinity : CanExecute (.pisinf 1) (toyPts ⟨3, 4, 0⟩ G) :=
  can (by decide +kernel)

theorem witness_PisinfTestsZ_finite : CanExecute (.pisinf 2) (toyPts ⟨3, 4, 0⟩ G) :=
  can (by decide +kernel)

theorem witness_PoncTestsTheCurveEquation : CanExecute (.ponc 1) (toyPts G G) :=
  can (by decide +kernel)

theorem witness_PdblFollowsTheDoublingFormulas_copy : CanExecute (.pdbl 0 1) (toyPts ⟨3, 4, 0⟩ G) :=
  can (by decide +kernel)

theorem witness_PdblFollowsTheDoublingFormulas_order_two :
    CanExecute (.pdbl 0 1) (toyPts ⟨40, 0, 61⟩ G) :=
  can (by decide +kernel)

theorem witness_PdblFollowsTheDoublingFormulas_formula : CanExecute (.pdbl 0 1) (toyPts G G) :=
  can (by decide +kernel)

/-- `X1·Z2 = X2·Z1` on the residues. -/
abbrev sameX (s : State) (P Q : Point) : Prop :=
  s.fieldValue P.x * s.fieldValue Q.z = s.fieldValue Q.x * s.fieldValue P.z

/-- `Y1·Z2 = Y2·Z1` on the residues. -/
abbrev sameY (s : State) (P Q : Point) : Prop :=
  s.fieldValue P.y * s.fieldValue Q.z = s.fieldValue Q.y * s.fieldValue P.z

/-- `sameX` on the values. -/
theorem sameX_iff {s : State} (hp : s.consts.p.toNat % 2 = 1) (P Q : Point) :
    sameX s P Q ↔
      (P.x.toNat * Q.z.toNat) % s.consts.p.toNat = (Q.x.toNat * P.z.toNat) % s.consts.p.toNat :=
  State.fieldValue_mul_eq_iff hp _ _ _ _

/-- `sameY` on the values. -/
theorem sameY_iff {s : State} (hp : s.consts.p.toNat % 2 = 1) (P Q : Point) :
    sameY s P Q ↔
      (P.y.toNat * Q.z.toNat) % s.consts.p.toNat = (Q.y.toNat * P.z.toNat) % s.consts.p.toNat :=
  State.fieldValue_mul_eq_iff hp _ _ _ _

theorem witness_PaddFollowsTheAdditionFormulas_second_infinity :
    let P : Point := ⟨0, 7, 0⟩
    let Q : Point := ⟨0, 9, 0⟩
    let s := toyPts P Q
    CanExecute (.padd 0 1 2) s ∧ Q.z = 0 :=
  ⟨can (by decide +kernel), by decide +kernel⟩

theorem witness_PaddFollowsTheAdditionFormulas_first_infinity :
    let P : Point := ⟨0, 1, 0⟩
    let Q : Point := G
    let s := toyPts P Q
    CanExecute (.padd 0 1 2) s ∧ Q.z ≠ 0 ∧ P.z = 0 :=
  ⟨can (by decide +kernel), by decide +kernel, by decide +kernel⟩

theorem witness_PaddFollowsTheAdditionFormulas_inverse :
    let P : Point := G
    let Q : Point := ⟨39, 88, 61⟩
    let s := toyPts P Q
    CanExecute (.padd 0 1 2) s ∧ Q.z ≠ 0 ∧ P.z ≠ 0 ∧ sameX s P Q ∧ ¬ sameY s P Q :=
  ⟨can (by decide +kernel), by decide +kernel, by decide +kernel,
    (sameX_iff (by decide +kernel) _ _).mpr (by decide +kernel),
    (sameY_iff (by decide +kernel) _ _).not.mpr (by decide +kernel)⟩

theorem witness_PaddFollowsTheAdditionFormulas_order_two :
    let P : Point := ⟨40, 0, 61⟩
    let Q : Point := ⟨40, 0, 61⟩
    let s := toyPts P Q
    CanExecute (.padd 0 1 2) s ∧ Q.z ≠ 0 ∧ P.z ≠ 0 ∧ sameX s P Q ∧ sameY s P Q ∧ P.y = 0 :=
  ⟨can (by decide +kernel), by decide +kernel, by decide +kernel,
    (sameX_iff (by decide +kernel) _ _).mpr (by decide +kernel),
    (sameY_iff (by decide +kernel) _ _).mpr (by decide +kernel), by decide +kernel⟩

theorem witness_PaddFollowsTheAdditionFormulas_double :
    let P : Point := G
    let Q : Point := ⟨20, 27, 86⟩
    let s := toyPts P Q
    CanExecute (.padd 0 1 2) s ∧ Q.z ≠ 0 ∧ P.z ≠ 0 ∧ sameX s P Q ∧ sameY s P Q ∧ P.y ≠ 0 :=
  ⟨can (by decide +kernel), by decide +kernel, by decide +kernel,
    (sameX_iff (by decide +kernel) _ _).mpr (by decide +kernel),
    (sameY_iff (by decide +kernel) _ _).mpr (by decide +kernel), by decide +kernel⟩

theorem witness_PaddFollowsTheAdditionFormulas_formula :
    let P : Point := G
    let Q : Point := ⟨67, 14, 53⟩
    let s := toyPts P Q
    CanExecute (.padd 0 1 2) s ∧ Q.z ≠ 0 ∧ P.z ≠ 0 ∧ ¬ sameX s P Q :=
  ⟨can (by decide +kernel), by decide +kernel, by decide +kernel,
    (sameX_iff (by decide +kernel) _ _).not.mpr (by decide +kernel)⟩

theorem witness_PaddOfEqualPointsIsPdbl_same :
    ptFieldOk 2 = ptFieldOk 1 ∧ (toyPts G G).readPt 1 = (toyPts G G).readPt 2 :=
  by decide +kernel

theorem witness_PaddOfEqualPointsIsPdbl_class :
    let s := toyPts G ⟨20, 27, 86⟩
    CanExecute (.padd 0 1 2) s ∧ s.ProjEq (s.readPt 1) (s.readPt 2) ∧
      exec (.padd 0 1 2) s = .next ((s.writePt 0 ⟨67, 14, 53⟩).complete .none) ∧
      exec (.pdbl 0 1) s = .next ((s.writePt 0 ⟨67, 14, 53⟩).complete .none) :=
  ⟨can (by decide +kernel), .inr ⟨by decide +kernel, by decide +kernel,
    (sameX_iff (by decide +kernel) _ _).mpr (by decide +kernel),
    (sameY_iff (by decide +kernel) _ _).mpr (by decide +kernel)⟩,
    isNext (by decide +kernel), isNext (by decide +kernel)⟩

theorem witness_PaddCommutesProjectively :
    CanExecute (.padd 0 1 2) (toyPts G ⟨67, 14, 53⟩) ∧
      (toyPts G ⟨67, 14, 53⟩).consts.p.toNat.Prime :=
  ⟨can (by decide +kernel), witness_toy_prime⟩

theorem witness_PaffReducesToAffineForm :
    CanExecute (.paff 0 1) (toyPts ⟨53, 85, 56⟩ G) ∧ ((toyPts ⟨53, 85, 56⟩ G).readPt 1).z ≠ 0 ∧
      (toyPts ⟨53, 85, 56⟩ G).consts.p.toNat.Prime :=
  ⟨can (by decide +kernel), by decide +kernel, witness_toy_prime⟩

theorem witness_PaffReducesToAffineForm_infinity : CanExecute (.paff 0 1) (toyPts ⟨5, 6, 0⟩ G) :=
  can (by decide +kernel)

/-- The toy state with a point in `PT[1]` and a scalar in `V[4]`. -/
def toyMul (P : Point) (k : Wide) : State := (toyPts P G).writeV 4 k

theorem witness_PmulIsTheSwapLadder :
    CanExecute (.pmul 0 1 4) (toyMul G (BitVec.ofNat 512 (2 ^ 256 - 1))) :=
  can (by decide +kernel)

theorem witness_PmulByZeroAndOne_zero :
    CanExecute (.pmul 0 1 4) (toyMul ⟨5, 6, 0⟩ 0) ∧ (toyMul ⟨5, 6, 0⟩ 0).readV 4 = 0 :=
  ⟨can (by decide +kernel), by decide +kernel⟩

theorem witness_PmulByZeroAndOne_one :
    CanExecute (.pmul 0 1 4) (toyMul G 1) ∧ (toyMul G 1).readV 4 = 1 ∧ ((toyMul G 1).readPt 1).z ≠ 0 :=
  ⟨can (by decide +kernel), by decide +kernel, by decide +kernel⟩

theorem witness_PmulInfinityIsCanonical :
    CanExecute (.pmul 0 1 4) (toyMul G 47) ∧ (toyMul G 47).consts.p.toNat.Prime ∧
      exec (.pmul 0 1 4) (toyMul G 47) =
        .next (((toyMul G 47).writePt 0 ⟨0, 1, 0⟩).complete .none) ∧
      ((((toyMul G 47).writePt 0 ⟨0, 1, 0⟩).complete .none).readPt 0).z = 0 :=
  ⟨can (by decide +kernel), witness_toy_prime, isNext (by decide +kernel), by decide +kernel⟩

theorem witness_PdblStaysOnTheCurve :
    CanExecute (.pdbl 0 1) (toyPts G G) ∧ (toyPts G G).consts.p.toNat.Prime ∧
      (toyPts G G).OnCurve ((toyPts G G).readPt 1) ∧
      exec (.pdbl 0 1) (toyPts G G) =
        .next (((toyPts G G).writePt 0 ⟨67, 14, 53⟩).complete .none) :=
  ⟨can (by decide +kernel), witness_toy_prime,
    (State.onCurve_iff (by decide +kernel) _).mpr (by decide +kernel), isNext (by decide +kernel)⟩

theorem witness_PaddStaysOnTheCurve :
    let s := toyPts G ⟨67, 14, 53⟩
    CanExecute (.padd 0 1 2) s ∧ s.consts.p.toNat.Prime ∧ s.OnCurve (s.readPt 1) ∧ s.OnCurve (s.readPt 2) ∧
      exec (.padd 0 1 2) s = .next ((s.writePt 0 ⟨53, 85, 56⟩).complete .none) :=
  ⟨can (by decide +kernel), witness_toy_prime,
    (State.onCurve_iff (by decide +kernel) _).mpr (by decide +kernel),
    (State.onCurve_iff (by decide +kernel) _).mpr (by decide +kernel), isNext (by decide +kernel)⟩

theorem witness_PmulStaysOnTheCurve :
    CanExecute (.pmul 0 1 4) (toyMul G 3) ∧ (toyMul G 3).consts.p.toNat.Prime ∧
      (toyMul G 3).OnCurve ((toyMul G 3).readPt 1) ∧
      exec (.pmul 0 1 4) (toyMul G 3) =
        .next (((toyMul G 3).writePt 0 ⟨53, 85, 56⟩).complete .none) :=
  ⟨can (by decide +kernel), witness_toy_prime,
    (State.onCurve_iff (by decide +kernel) _).mpr (by decide +kernel), isNext (by decide +kernel)⟩

theorem witness_OnlyTomontReadsR2 :
    (∀ m a b, Instr.madd .p 3 1 2 ≠ .tomont m a b) ∧
      exec (.madd .p 3 1 2) pendingToy = .next ((pendingToy.writeV 3 13).complete .none) :=
  ⟨nofun, isNext (by decide +kernel)⟩

theorem witness_OffsetsSelectTheMappedRegisters_reserved :
    (0x030 ≤ 0x030 ∧ 0x030 < 0x100) ∧ (0x030 ≤ 0x0FF ∧ 0x0FF < 0x100) ∧
      (0x980 ≤ 0x980 ∧ 0x980 < 0x1000) ∧ (0x980 ≤ 0xFFF ∧ 0xFFF < 0x1000) :=
  by decide

theorem witness_LegalReadsOnlyAnswer_busy :
    (0x1C0#12 : BitVec 12).toNat % 8 = 0 ∧ busyToy.busy = true ∧
      (addrDecode (0x1C0#12 : BitVec 12).toNat).isData = true :=
  by decide +kernel

theorem witness_LegalReadsOnlyAnswer_idle :
    (0x978#12 : BitVec 12).toNat % 8 = 0 ∧ toy.busy = false ∧
      (addrDecode (0x018#12 : BitVec 12).toNat).isData = false :=
  by decide +kernel

theorem witness_WritesReachOneWordOnly :
    (0x978#12 : BitVec 12).toNat % 8 = 0 ∧ toy.busy = false ∧
      (addrDecode (0x978#12 : BitVec 12).toNat).isData = true ∧
      (0x020#12 : BitVec 12).toNat % 8 = 0 ∧ (0x020#12 : BitVec 12) ≠ 0x978#12 :=
  by decide +kernel

theorem witness_WritesReachOneWordOnly_registers :
    addrDecode (0x020#12 : BitVec 12).toNat = .n0p ∧ addrDecode (0x028#12 : BitVec 12).toNat = .n0q ∧
      addrDecode (0x4F8#12 : BitVec 12).toNat = .v 15 7 ∧
      addrDecode (0x500#12 : BitVec 12).toNat = .pt 0 0 0 ∧
      addrDecode (0x578#12 : BitVec 12).toNat = .pt 0 1 7 ∧
      addrDecode (0x7F8#12 : BitVec 12).toNat = .pt 3 2 7 :=
  by decide +kernel

theorem witness_WritesReachOneWordOnly_constants :
    addrDecode (0x800#12 : BitVec 12).toNat = .const .p 0 ∧
      addrDecode (0x840#12 : BitVec 12).toNat = .const .r2p 0 ∧
      addrDecode (0x8B8#12 : BitVec 12).toNat = .const .a 7 ∧
      addrDecode (0x8C0#12 : BitVec 12).toNat = .const .b 0 ∧
      addrDecode (0x900#12 : BitVec 12).toNat = .const .q 0 ∧
      addrDecode (0x978#12 : BitVec 12).toNat = .const .r2q 7 :=
  by decide +kernel

theorem witness_BusyRefusesWritesWithOvr_cmd :
    (0x018#12 : BitVec 12).toNat % 8 = 0 ∧ busyToy.busy = true ∧
      addrDecode (0x018#12 : BitVec 12).toNat = .cmd :=
  by decide +kernel

theorem witness_BusyRefusesWritesWithOvr_data :
    (0x020#12 : BitVec 12).toNat % 8 = 0 ∧ busyToy.busy = true ∧
      (addrDecode (0x020#12 : BitVec 12).toNat).isData = true :=
  by decide +kernel

theorem witness_InputsAreFixedWhilePending_write :
    busyToy.busy = true ∧ serveEvent (.write 0x008 8 1) busyToy =
      .next { busyToy with ctrl := ⟨.w512, false⟩, reply := some (.written false) } :=
  ⟨by decide, isNext (by decide +kernel)⟩

theorem witness_InputsAreFixedWhilePending_reset :
    busyToy.busy = true ∧ serveEvent (.write 0x008 8 4) busyToy =
      .next { State.reset with reply := some (.written false) } ∧ (4#64 : Limb).getLsbD 2 = true :=
  ⟨by decide, isNext (by decide +kernel), by decide⟩

theorem witness_StatusAndCtrlWordLayout_codes :
    State.reset.status.err = .none ∧ afterError.status.err = .illegalOpcode ∧
      (toy.complete .reservedField).status.err = .reservedField ∧
      (toy.complete .size).status.err = .size ∧ (toy.complete .badModulus).status.err = .badModulus ∧
      (toy.complete .unreduced).status.err = .unreduced ∧ toyWide.ctrl.size = .w512 :=
  by decide +kernel

theorem witness_IllegalAccessesOnlySetBuserr :
    (4 ≠ 8 ∨ (0x000#12 : BitVec 12).toNat % 8 ≠ 0) ∧ (8 ≠ 8 ∨ (0xFFF#12 : BitVec 12).toNat % 8 ≠ 0) :=
  by decide

theorem witness_CmdWritesAreAccepted : toy.busy = false := by decide +kernel

theorem witness_CtrlWritesStoreSizeAndIe :
    (0xFFFFFFFFFFFFFFFB#64 : Limb).getLsbD 2 = false ∧ busyToy.busy = true :=
  by decide +kernel

theorem witness_ReservedOffsetsAreInert_low :
    (0x030#12 : BitVec 12).toNat % 8 = 0 ∧
      (0x030 ≤ (0x030#12 : BitVec 12).toNat ∧ (0x030#12 : BitVec 12).toNat < 0x100) :=
  by decide +kernel

theorem witness_ReservedOffsetsAreInert_high :
    (0xFF8#12 : BitVec 12).toNat % 8 = 0 ∧ 0x980 ≤ (0xFF8#12 : BitVec 12).toNat :=
  by decide +kernel

end Sys2Proof.Tests
end

namespace Sys2Proof.Machine

/-! ### The bounds that a command's checks give (41_modular.md R142, 60_exceptions.md R281) -/

/-- The operand width is not zero. -/
theorem State.runBits_pos (s : State) : 0 < s.runBits := by
  unfold State.runBits
  cases s.runWidth <;> decide

set_option exponentiation.threshold 512 in
/-- Every wide register a command reads fits its width (60_exceptions.md R281). -/
theorem CanExecute.wide_lt {i : Instr} {s : State} (h : CanExecute i s) {r : Wide}
    (hr : r ∈ wideReads i s) : r.toNat < 2 ^ s.runBits := by
  obtain ⟨-, hsize, -, -⟩ := h
  unfold State.runBits
  cases hw : s.runWidth with
  | w256 => exact hsize hw r hr
  | w512 => exact r.isLt

/-- The modulus of a command is one of the wide registers it reads. -/
theorem modulus_mem_wideReads {i : Instr} {m : ModSel} (hm : usedSet i = some m) (s : State) :
    (s.modSet m).m ∈ wideReads i s := by
  simp [wideReads, hm]

/-- The modulus of a command that executes is at least 3 (41_modular.md R142). -/
theorem CanExecute.three_le_modulus {i : Instr} {s : State} {m : ModSel} (h : CanExecute i s)
    (hm : usedSet i = some m) : 3 ≤ (s.modSet m).m.toNat := by
  obtain ⟨-, -, hset, -⟩ := h
  obtain ⟨-, h3, -⟩ := hset m hm
  exact h3

theorem CanExecute.modulus_pos {i : Instr} {s : State} {m : ModSel} (h : CanExecute i s)
    (hm : usedSet i = some m) : 0 < (s.modSet m).m.toNat :=
  Nat.zero_lt_of_lt (h.three_le_modulus hm)

/-- The modulus of a command that executes fits the width (60_exceptions.md R281). -/
theorem CanExecute.modulus_le {i : Instr} {s : State} {m : ModSel} (h : CanExecute i s)
    (hm : usedSet i = some m) : (s.modSet m).m.toNat ≤ 2 ^ s.runBits :=
  (h.wide_lt (modulus_mem_wideReads hm s)).le

set_option exponentiation.threshold 512 in
/-- A command's value below its modulus is kept whole in a wide register. -/
theorem toNat_zextWide_of_lt_wide {n : Nat} {r : Wide} (h : n < r.toNat) :
    (zextWide n).toNat = n :=
  toNat_zextWide (h.trans r.isLt)

/-- Every value in REDUCED of a command that executes is below its modulus (41_modular.md R143). -/
theorem CanExecute.reduced_lt {i : Instr} {s : State} {m : ModSel} (h : CanExecute i s)
    (hm : usedSet i = some m) {r : Wide} (hr : r ∈ reducedReads i s) :
    r.toNat < (s.modSet m).m.toNat := by
  obtain ⟨-, -, -, hred⟩ := h
  exact hred m hm r hr

/-! ### The results of the modular family are residues (41_modular.md, 42_modexp.md) -/

theorem modAdd_lt {W m x y : Nat} (hm : m ≤ 2 ^ W) (hx : x < m) (hy : y < m) :
    modAdd W m x y < m := by
  rw [modAdd_eq hm hx hy]
  exact Nat.mod_lt _ (Nat.zero_lt_of_lt hx)

theorem modSub_lt {W m x y : Nat} (hm : m ≤ 2 ^ W) (hx : x < m) (hy : y < m) :
    modSub W m x y < m := by
  rw [modSub_eq hm hx hy]
  exact Nat.mod_lt _ (Nat.zero_lt_of_lt hx)

theorem modDbl_lt {W m x : Nat} (hW : 0 < W) (hm : m ≤ 2 ^ W) (hx : x < m) :
    modDbl W m x < m := by
  rw [modDbl_eq hW hm hx]
  exact Nat.mod_lt _ (Nat.zero_lt_of_lt hx)

/-- The exponentiation is a canonical residue for every exponent (42_modexp.md R184). -/
theorem montExp_lt {m : Nat} (hm : 0 < m) (W x k : Nat) : montExp W m x k < m :=
  expLoop_lt hm W x k W _ (Nat.mod_lt _ hm)

/-- Modular subtraction is the integer remainder of the difference (41_modular.md R165). -/
theorem modSub_cast_int {W m x y : Nat} (hm : m ≤ 2 ^ W) (hx : x < m) (hy : y < m) :
    (modSub W m x y : Int) = ((x : Int) - y) % m := by
  rw [modSub_eq hm hx hy]
  push_cast [hy.le]
  rw [← add_sub_assoc, add_sub_right_comm, Int.add_emod_right]

/-- Settles O23: the operands are reduced, so the model's subtraction is the integer remainder. -/
theorem msubIsTheModularDifference : Obligations.MsubIsTheModularDifference := by
  intro m vd vs1 vs2 s h
  have hle := h.modulus_le rfl
  have hx := h.reduced_lt rfl (r := s.readV vs1) (by simp [reducedReads])
  have hy := h.reduced_lt rfl (r := s.readV vs2) (by simp [reducedReads])
  refine ⟨_, exec_msub_ok h, rfl, ?_⟩
  rw [State.complete_readV, State.readV_writeV, if_pos rfl,
    toNat_zextWide_of_lt_wide (modSub_lt hle hx hy), modSub_cast_int hle hx hy]

/-! ### Point arithmetic gives reduced coordinates (43_point.md R200, 44_ladder.md R262) -/

/-- A modulus and a width for which the field operations are modular arithmetic (43_point.md R201). -/
structure Field.Usable (F : Field) : Prop where
  one_lt : 1 < F.p
  le_radix : F.p ≤ 2 ^ F.bits
  bits_pos : 0 < F.bits

/-- Every coordinate is a reduced value of the field (43_point.md R200). -/
structure Triple.Reduced (F : Field) (T : Triple) : Prop where
  x_lt : T.x < F.p
  y_lt : T.y < F.p
  z_lt : T.z < F.p

namespace Field.Usable
variable {F : Field} {P Q : Triple} {u v : Nat}

theorem p_pos (hF : F.Usable) : 0 < F.p := Nat.zero_lt_of_lt hF.one_lt

theorem mul_lt (hF : F.Usable) (u v : Nat) : F.mul u v < F.p := montMul_lt hF.p_pos _ _ _

theorem add_lt (hF : F.Usable) (hu : u < F.p) (hv : v < F.p) : F.add u v < F.p :=
  modAdd_lt hF.le_radix hu hv

theorem sub_lt (hF : F.Usable) (hu : u < F.p) (hv : v < F.p) : F.sub u v < F.p :=
  modSub_lt hF.le_radix hu hv

theorem dbl_lt (hF : F.Usable) (hu : u < F.p) : F.dbl u < F.p :=
  modDbl_lt hF.bits_pos hF.le_radix hu

/-- The canonical infinity has the coordinates 0, 1, 0 (10_state.md R26). -/
theorem infinity_reduced (hF : F.Usable) : infinity.Reduced F := ⟨hF.p_pos, hF.one_lt, hF.p_pos⟩

/-- The formula ends in a product, a difference of products and a product (43_point.md R218). -/
theorem dblFormula_reduced (hF : F.Usable) (P : Triple) : (dblFormula F P).Reduced F :=
  ⟨hF.mul_lt _ _, hF.sub_lt (hF.mul_lt _ _) (hF.dbl_lt (hF.mul_lt _ _)), hF.mul_lt _ _⟩

/-- The formula ends in a product, a difference of products and a product (43_point.md R225). -/
theorem addFormula_reduced (hF : F.Usable) (P Q : Triple) : (addFormula F P Q).Reduced F :=
  ⟨hF.mul_lt _ _, hF.sub_lt (hF.mul_lt _ _) (hF.mul_lt _ _), hF.mul_lt _ _⟩

theorem pointDbl_reduced (hF : F.Usable) (hP : P.Reduced F) : (pointDbl F P).Reduced F := by
  unfold pointDbl
  split_ifs
  · exact hP
  · exact hF.infinity_reduced
  · exact hF.dblFormula_reduced P

theorem pointAdd_reduced (hF : F.Usable) (hP : P.Reduced F) (hQ : Q.Reduced F) :
    (pointAdd F P Q).Reduced F := by
  unfold pointAdd
  split_ifs
  · exact hP
  · exact hQ
  · exact hF.pointDbl_reduced hP
  · exact hF.infinity_reduced
  · exact hF.addFormula_reduced P Q

theorem toAffine_reduced (hF : F.Usable) (P : Triple) : (toAffine F P).Reduced F := by
  unfold toAffine
  split_ifs
  · exact hF.infinity_reduced
  · exact ⟨hF.mul_lt _ _, hF.mul_lt _ _, Nat.mod_lt _ hF.p_pos⟩

/-- Each iteration adds and doubles reduced points only (44_ladder.md R262). -/
theorem ladderLoop_reduced (hF : F.Usable) (k i : Nat) {Q R : Triple} (hQ : Q.Reduced F)
    (hR : R.Reduced F) : (ladderLoop F k i Q R).Reduced F := by
  induction i generalizing Q R with
  | zero => exact hQ
  | succ i ih =>
    unfold ladderLoop
    split_ifs
    · exact ih (hF.pointAdd_reduced hQ hR) (hF.pointDbl_reduced hR)
    · exact ih (hF.pointDbl_reduced hQ) (hF.pointAdd_reduced hR hQ)

theorem ladder_reduced (hF : F.Usable) (hP : P.Reduced F) (k : Nat) :
    (ladder F P k).Reduced F :=
  hF.ladderLoop_reduced k _ hF.infinity_reduced hP

end Field.Usable

/-- The field of a command on the set `p` that executes is usable (43_point.md R200, R201). -/
theorem CanExecute.field_usable {i : Instr} {s : State} (h : CanExecute i s)
    (hp : usedSet i = some .p) : s.field.Usable :=
  ⟨lt_of_lt_of_le (by decide) (h.three_le_modulus hp), h.modulus_le hp, s.runBits_pos⟩

/-- A source point of a command that executes is reduced where its coordinates are in REDUCED. -/
theorem CanExecute.source_reduced {i : Instr} {s : State} (h : CanExecute i s)
    (hp : usedSet i = some .p) {P : Point} (hP : ∀ r ∈ P.coords, r ∈ reducedReads i s) :
    P.triple.Reduced s.field := by
  have hlt : ∀ r ∈ P.coords, r.toNat < s.field.p := fun r hr => h.reduced_lt hp (hP r hr)
  exact ⟨hlt P.x (by simp [Point.coords]), hlt P.y (by simp [Point.coords]),
    hlt P.z (by simp [Point.coords])⟩

/-! ### What a command writes at 256 bits (00_scope.md R11, 10_state.md R23) -/

/-- A command that completes with code 0 could execute (30_encoding.md R100). -/
theorem canExecute_of_err_none {i : Instr} {s t : State} (h : exec i s = .next t)
    (he : t.status.err = .none) : CanExecute i s := by
  rcases exec_cases i s with ⟨hc, -⟩ | ⟨-, code, hcode, hx⟩
  · exact hc
  · obtain rfl : s.complete code = t := Host.Outcome.next.inj (hx.symm.trans h)
    exact absurd he hcode

/-- What a V register holds after the completion that wrote it. -/
theorem readV_of_exec_writeV {i : Instr} {s t : State} {d : VField} {r : Wide}
    (hx : exec i s = .next ((s.writeV d r).complete .none)) (ht : exec i s = .next t) :
    t.readV d = r := by
  obtain rfl : (s.writeV d r).complete .none = t := Host.Outcome.next.inj (hx.symm.trans ht)
  simp

/-- What a point register holds after the completion that wrote it. -/
theorem readPt_of_exec_writePt {i : Instr} {s t : State} {d : PtField} {P : Point}
    (hx : exec i s = .next ((s.writePt d P).complete .none)) (ht : exec i s = .next t) :
    t.readPt d = P := by
  obtain rfl : (s.writePt d P).complete .none = t := Host.Outcome.next.inj (hx.symm.trans ht)
  simp

/-- A source register of a command that executes at 256 bits fits (10_state.md R23). -/
theorem CanExecute.read_fits {i : Instr} {s : State} (h : CanExecute i s)
    (hw : s.runWidth = .w256) {r : Wide} (hr : r ∈ wideReads i s) : FitsNarrow r := by
  obtain ⟨-, hsize, -, -⟩ := h
  exact hsize hw r hr

/-- A value below the modulus of a command that executes at 256 bits fits (00_scope.md R11). -/
theorem CanExecute.residue_fits {i : Instr} {s : State} {m : ModSel} (h : CanExecute i s)
    (hw : s.runWidth = .w256) (hm : usedSet i = some m) {n : Nat} (hn : n < (s.modSet m).m.toNat) :
    FitsNarrow (zextWide n) := by
  have hfit := h.read_fits hw (modulus_mem_wideReads hm s)
  rw [FitsNarrow, toNat_zextWide_of_lt_wide hn]
  exact hn.trans hfit

/-- The coordinates of a reduced triple of a command that executes at 256 bits fit. -/
theorem CanExecute.triple_fits {i : Instr} {s : State} (h : CanExecute i s)
    (hw : s.runWidth = .w256) (hp : usedSet i = some .p) {T : Triple} (hT : T.Reduced s.field) :
    ∀ r ∈ T.point.coords, FitsNarrow r := by
  simp only [Triple.point, Point.coords, List.forall_mem_cons, List.not_mem_nil, false_imp_iff,
    implies_true, and_true]
  exact ⟨h.residue_fits hw hp hT.x_lt, h.residue_fits hw hp hT.y_lt, h.residue_fits hw hp hT.z_lt⟩

/-- The coordinate that was replaced reads back (43_point.md R211). -/
@[simp] theorem Point.coord_withCoord_same (P : Point) (c : CField) (r : Wide) :
    (P.withCoord c r).coord c = r := by
  unfold Point.coord Point.withCoord
  rcases c.toNat with _ | _ | n <;> rfl

/-- The coordinate a selector names is one of the three. -/
theorem Point.coord_mem_coords (P : Point) (c : CField) : P.coord c ∈ P.coords := by
  unfold Point.coord
  split <;> simp [Point.coords]

/-- A coordinate of a source point is a register the command reads (60_exceptions.md R281). -/
theorem coord_mem_wideReads {i : Instr} {k : PtField} (hk : k ∈ sourcePts i) {s : State} {r : Wide}
    (hr : r ∈ (s.readPt k).coords) : r ∈ wideReads i s := by
  simp only [wideReads, List.mem_append, List.mem_flatMap]
  exact .inl (.inl (.inr ⟨k, hk, hr⟩))

/-- A source V register is a register the command reads (60_exceptions.md R281). -/
theorem readV_mem_wideReads {i : Instr} {f : VField} (hf : f ∈ sourceVs i) (s : State) :
    s.readV f ∈ wideReads i s := by
  simp only [wideReads, List.mem_append, List.mem_map]
  exact .inl (.inl (.inl ⟨f, hf, rfl⟩))

/-- The V register that a command writes fits at 256 bits: it is a copy of a source register or a
residue of the modulus. -/
theorem destV_fits {i : Instr} {s t : State} (h : CanExecute i s) (hw : s.runWidth = .w256)
    (ht : exec i s = .next t) {d : VField} (hd : destV i = some d) : FitsNarrow (t.readV d) := by
  match i, hd with
  | .mov vd vs, rfl =>
    rw [readV_of_exec_writeV (exec_mov_ok h) ht]
    exact h.read_fits hw (readV_mem_wideReads (List.mem_singleton_self vs) s)
  | .mmul m vd vs1 vs2, rfl =>
    rw [readV_of_exec_writeV (exec_mmul_ok h) ht]
    exact h.residue_fits hw rfl (montMul_lt (h.modulus_pos rfl) _ _ _)
  | .madd m vd vs1 vs2, rfl =>
    rw [readV_of_exec_writeV (exec_madd_ok h) ht]
    exact h.residue_fits hw rfl (modAdd_lt (h.modulus_le rfl)
      (h.reduced_lt rfl (by simp [reducedReads])) (h.reduced_lt rfl (by simp [reducedReads])))
  | .msub m vd vs1 vs2, rfl =>
    rw [readV_of_exec_writeV (exec_msub_ok h) ht]
    exact h.residue_fits hw rfl (modSub_lt (h.modulus_le rfl)
      (h.reduced_lt rfl (by simp [reducedReads])) (h.reduced_lt rfl (by simp [reducedReads])))
  | .mdbl m vd vs, rfl =>
    rw [readV_of_exec_writeV (exec_mdbl_ok h) ht]
    exact h.residue_fits hw rfl (modDbl_lt s.runBits_pos (h.modulus_le rfl)
      (h.reduced_lt rfl (by simp [reducedReads])))
  | .tomont m vd vs, rfl =>
    rw [readV_of_exec_writeV (exec_tomont_ok h) ht]
    exact h.residue_fits hw rfl (montMul_lt (h.modulus_pos rfl) _ _ _)
  | .frommont m vd vs, rfl =>
    rw [readV_of_exec_writeV (exec_frommont_ok h) ht]
    exact h.residue_fits hw rfl (montMul_lt (h.modulus_pos rfl) _ _ _)
  | .mexp m vd vbase vexp, rfl =>
    rw [readV_of_exec_writeV (exec_mexp_ok h) ht]
    exact h.residue_fits hw rfl (montExp_lt (h.modulus_pos rfl) _ _ _)
  | .minv m vd vs, rfl =>
    rw [readV_of_exec_writeV (exec_minv_ok h) ht]
    exact h.residue_fits hw rfl (montExp_lt (h.modulus_pos rfl) _ _ _)
  | .pget vd pts c, rfl =>
    rw [readV_of_exec_writeV (exec_pget_ok h) ht]
    exact h.read_fits hw
      (coord_mem_wideReads (List.mem_singleton_self pts) (Point.coord_mem_coords _ c))

set_option exponentiation.threshold 512 in
/-- The canonical infinity fits at 256 bits (10_state.md R26). -/
theorem infinity_coords_fit : ∀ r ∈ Point.infinity.coords, FitsNarrow r := by
  simp [Point.infinity, Point.coords]

/-- Every coordinate of the point that a command but PPUT writes fits at 256 bits: the point is a copy
of a source point, the canonical infinity or a reduced triple. -/
theorem destPt_fits {i : Instr} {s t : State} (h : CanExecute i s) (hw : s.runWidth = .w256)
    (ht : exec i s = .next t) (hput : ∀ a b c, i ≠ .pput a b c) {d : PtField}
    (hd : destPt i = some d) : ∀ r ∈ (t.readPt d).coords, FitsNarrow r := by
  match i, hd with
  | .pinf ptd, rfl =>
    rw [readPt_of_exec_writePt (exec_pinf_ok h) ht]
    exact infinity_coords_fit
  | .pmov ptd pts, rfl =>
    rw [readPt_of_exec_writePt (exec_pmov_ok h) ht]
    exact fun r hr => h.read_fits hw (coord_mem_wideReads (List.mem_singleton_self pts) hr)
  | .pput ptd vs c, rfl => exact absurd rfl (hput ptd vs c)
  | .pdbl ptd pts, rfl =>
    rw [readPt_of_exec_writePt (exec_pdbl_ok h) ht]
    have hP := h.source_reduced rfl (P := s.readPt pts) (fun r hr => by simp [reducedReads, hr])
    exact h.triple_fits hw rfl ((h.field_usable rfl).pointDbl_reduced hP)
  | .padd ptd pts1 pts2, rfl =>
    rw [readPt_of_exec_writePt (exec_padd_ok h) ht]
    have hP := h.source_reduced rfl (P := s.readPt pts1) (fun r hr => by simp [reducedReads, hr])
    have hQ := h.source_reduced rfl (P := s.readPt pts2) (fun r hr => by simp [reducedReads, hr])
    exact h.triple_fits hw rfl ((h.field_usable rfl).pointAdd_reduced hP hQ)
  | .paff ptd pts, rfl =>
    rw [readPt_of_exec_writePt (exec_paff_ok h) ht]
    exact h.triple_fits hw rfl ((h.field_usable rfl).toAffine_reduced _)
  | .pmul ptd pts vk, rfl =>
    rw [readPt_of_exec_writePt (exec_pmul_ok h) ht]
    have hP := h.source_reduced rfl (P := s.readPt pts) (fun r hr => by simp [reducedReads, hr])
    exact h.triple_fits hw rfl ((h.field_usable rfl).ladder_reduced hP _)

/-- The coordinate that PPUT selects fits at 256 bits: it is a copy of the source register. -/
theorem pput_coord_fits {ptd : PtField} {vs : VField} {c : CField} {s t : State}
    (h : CanExecute (.pput ptd vs c) s) (hw : s.runWidth = .w256)
    (ht : exec (.pput ptd vs c) s = .next t) : FitsNarrow ((t.readPt ptd).coord c) := by
  rw [readPt_of_exec_writePt (exec_pput_ok h) ht, Point.coord_withCoord_same]
  exact h.read_fits hw (readV_mem_wideReads (List.mem_singleton_self vs) s)

/-- Settles O17: a written register is a source register or a residue, and both fit. -/
theorem narrowResultsAreZeroExtended : Obligations.NarrowResultsAreZeroExtended := by
  intro i s t hw ht he
  have h := canExecute_of_err_none ht he
  refine ⟨fun d hd => destV_fits h hw ht hd, fun hput d hd => destPt_fits h hw ht hput hd, ?_⟩
  rintro ptd vs c rfl
  have hcoord := pput_coord_fits h hw ht
  exact ⟨fun hc => by subst hc; exact hcoord, fun hc => by subst hc; exact hcoord,
    fun hc => by subst hc; exact hcoord⟩

/-! ### Legal accesses of the window (20_memory.md R61, R63, R64) -/

/-- An 8-byte access at a multiple of 8 is legal (20_memory.md R61). -/
theorem legalAccess_of_aligned {off : BitVec 12} (h : off.toNat % 8 = 0) :
    legalAccess off 8 = true := by
  simp [legalAccess, h]

/-- A legal read answers the selected word and changes nothing else (20_memory.md R64). -/
theorem serveEvent_read_aligned (s : State) {off : BitVec 12} (h : off.toNat % 8 = 0) :
    serveEvent (.read off 8) s =
      .next { s with reply := some (.data (s.legalRead (addrDecode off.toNat)) false) } := by
  rw [serveEvent, State.hostRead, if_pos (legalAccess_of_aligned h)]

/-- A legal write is the legal write of the selected register (20_memory.md R64). -/
theorem serveEvent_write_aligned (s : State) {off : BitVec 12} (h : off.toNat % 8 = 0) (x : Limb) :
    serveEvent (.write off 8 x) s =
      .next { s.legalWrite (addrDecode off.toNat) x with reply := some (.written false) } := by
  rw [serveEvent, State.hostWrite, if_pos (legalAccess_of_aligned h)]

/-- A data register reads 0 while a command is pending (20_memory.md R65). -/
theorem State.legalRead_of_busy {s : State} {r : WinReg} (hb : s.busy = true)
    (hr : r.isData = true) : s.legalRead r = 0 := by
  simp [State.legalRead, hb, hr]

/-- Any other legal read answers the window's word (20_memory.md R64). -/
theorem State.legalRead_of_idle {s : State} {r : WinReg} (h : s.busy = false ∨ r.isData = false) :
    s.legalRead r = s.windowWord r := by
  rcases h with h | h <;> simp [State.legalRead, h]

/-- The bytes of the word at an aligned offset (20_memory.md R63). -/
theorem State.windowByte_add (s : State) {off j : Nat} (h : off % 8 = 0) (hj : j < 8) :
    s.windowByte (off + j) = wordByte (s.windowWord (addrDecode off)) j := by
  have hmod : (off + j) % 8 = j := by omega
  rw [State.windowByte, hmod, Nat.add_sub_cancel]

/-- The place of an answer is no register of the window. -/
@[simp] theorem State.windowWord_withReply (s : State) (a : Option Reply) (r : WinReg) :
    State.windowWord { s with reply := a } r = s.windowWord r := by
  cases r <;> rfl

/-- Settles O51: a legal read is `legalRead` of the selected register, and limbs and bytes are the
quotients of the values they stand in. -/
theorem legalReadsOnlyAnswer : Obligations.LegalReadsOnlyAnswer := by
  refine ⟨fun s off h => ⟨⟨_, serveEvent_read_aligned s h, State.legalRead_of_busy,
    State.legalRead_of_idle⟩, fun j hj => ?_⟩, fun s => ?_, fun s => ⟨rfl, rfl⟩, fun s j => ?_⟩
  · rw [s.windowByte_add h hj, wordByte_toNat]
  · exact ⟨serveEvent_read_aligned s rfl, serveEvent_read_aligned s rfl,
      serveEvent_read_aligned s rfl, serveEvent_read_aligned s rfl⟩
  · exact ⟨fun f => getLimb_toNat _ _,
      fun k => ⟨getLimb_toNat _ _, getLimb_toNat _ _, getLimb_toNat _ _⟩, getLimb_toNat _ _,
      getLimb_toNat _ _, getLimb_toNat _ _, getLimb_toNat _ _, getLimb_toNat _ _, getLimb_toNat _ _⟩

/-! ### One limb of a wide register replaced (20_memory.md R67) -/

/-- A bit of the replaced limb is the new limb's; every other bit stays. -/
theorem getLsbD_setLimb (r : Wide) (j : Fin 8) (x : Limb) {n : Nat} (hn : n < 512) :
    (setLimb r j x).getLsbD n =
      if 64 * j.val ≤ n ∧ n < 64 * j.val + 64 then x.getLsbD (n - 64 * j) else r.getLsbD n := by
  have hle : n - 64 * j.val < 512 := by omega
  simp only [setLimb, BitVec.getLsbD_or, BitVec.getLsbD_and, BitVec.getLsbD_not,
    BitVec.getLsbD_shiftLeft, BitVec.getLsbD_setWidth, BitVec.getLsbD_allOnes, hn, hle,
    decide_true, Bool.true_and]
  by_cases hlow : n < 64 * j.val
  · simp [hlow, Nat.not_le.mpr hlow]
  · by_cases hhigh : n < 64 * j.val + 64
    · have hk : n - 64 * j.val < 64 := by omega
      simp [hlow, Nat.not_lt.mp hlow, hhigh, hk]
    · have hk : ¬ n - 64 * j.val < 64 := by omega
      have hx : x.getLsbD (n - 64 * j.val) = false := BitVec.getLsbD_of_ge _ _ (Nat.not_lt.mp hk)
      simp [hhigh, hk, hx]

/-- The replaced limb reads back and every other limb stays (20_memory.md R67). -/
theorem getLimb_setLimb (r : Wide) (i j : Fin 8) (x : Limb) :
    getLimb (setLimb r i x) j = if j = i then x else getLimb r j := by
  apply BitVec.eq_of_getLsbD_eq
  intro k hk
  have hn : 64 * j.val + k < 512 := by omega
  rw [getLimb, BitVec.getLsbD_extractLsb', getLsbD_setLimb r i x hn]
  by_cases hji : j = i
  · subst hji
    simp [hk]
  · have hout : ¬ (64 * i.val ≤ 64 * j.val + k ∧ 64 * j.val + k < 64 * i.val + 64) := by
      have := Fin.val_ne_of_ne hji
      omega
    rw [if_neg hout, if_neg hji, getLimb, BitVec.getLsbD_extractLsb']

/-! ### The registers of the window (20_memory.md R67) -/

/-- The register's fields are the ones that the address map uses: four points of three coordinates. -/
def WinReg.Named : WinReg → Prop
  | .pt k c _ => k.toNat < 4 ∧ c.toNat < 3
  | _ => True

/-- The offset at which a data register's word stands, the inverse of the address map. -/
def WinReg.dataOffset : WinReg → Nat
  | .n0p => 0x020
  | .n0q => 0x028
  | .v i j => vBase i + 8 * j
  | .pt k c j => ptBase k c + 8 * j
  | .const r j => constBase r + 8 * j
  | .id | .ctrl | .status | .cmd | .reserved => 0

/-- The address map selects registers that it names. -/
theorem addrDecode_named (off : Nat) : (addrDecode off).Named := by
  unfold addrDecode
  split_ifs
  all_goals simp only [WinReg.Named, BitVec.toNat_ofNat]
  omega

/-- The index of a constant register is the one it was numbered with. -/
theorem constIndex_constRegOf {n : Nat} (h : n < 6) : constIndex (constRegOf n) = n := by
  interval_cases n <;> rfl

/-- A data register stands at the offset that selects it. -/
theorem dataOffset_addrDecode {off : Nat} (h8 : off % 8 = 0)
    (hd : (addrDecode off).isData = true) : (addrDecode off).dataOffset = off := by
  revert hd
  unfold addrDecode
  split_ifs
  all_goals simp only [WinReg.isData, WinReg.dataOffset, vBase, ptBase, constBase, limbOf,
    BitVec.toNat_ofNat, Bool.false_eq_true, false_imp_iff, true_imp_iff]
  · omega
  · omega
  · omega
  · omega
  · rw [constIndex_constRegOf (by omega)]
    omega

/-- Two aligned offsets of one data register are one offset. -/
theorem eq_of_addrDecode_eq {off other : Nat} (h8 : off % 8 = 0) (h8' : other % 8 = 0)
    (hd : (addrDecode off).isData = true) (h : addrDecode other = addrDecode off) : other = off := by
  have hd' : (addrDecode other).isData = true := h ▸ hd
  rw [← dataOffset_addrDecode h8 hd, ← dataOffset_addrDecode h8' hd', h]

/-- A point field that the address map uses is its register's index (30_encoding.md R93). -/
theorem ptIndex_inj {k l : PtField} (hk : k.toNat < 4) (hl : l.toNat < 4) :
    ptIndex k = ptIndex l ↔ k = l := by
  rw [ptIndex, ptIndex, Fin.mk.injEq, Nat.mod_eq_of_lt hk, Nat.mod_eq_of_lt hl, BitVec.toNat_inj]

/-- A replaced coordinate leaves the other two (43_point.md R211). -/
theorem Point.coord_withCoord_of_ne (P : Point) {c d : CField} (hc : c.toNat < 3)
    (hd : d.toNat < 3) (h : d ≠ c) (r : Wide) : (P.withCoord c r).coord d = P.coord d := by
  have hne : d.toNat ≠ c.toNat := fun he => h (BitVec.eq_of_toNat_eq he)
  unfold Point.coord Point.withCoord
  generalize c.toNat = m at hc hne
  generalize d.toNat = n at hd hne
  interval_cases m <;> interval_cases n <;> simp at hne ⊢

/-- A constant register reads back what was set; every other one is unchanged. -/
@[simp] theorem Consts.get_set (k : Consts) (r r' : ConstReg) (x : Wide) :
    (k.set r x).get r' = if r' = r then x else k.get r' := by
  cases r <;> cases r' <;> rfl

/-! ### A data register stored (20_memory.md R64, R67) -/

/-- A stored word reads back. -/
theorem State.windowWord_storeData_same (s : State) {r : WinReg} (hd : r.isData = true) (x : Limb) :
    (s.storeData r x).windowWord r = x := by
  cases r with
  | n0p | n0q => rfl
  | v | pt | const => simp [State.windowWord, State.storeData, getLimb_setLimb]
  | id | ctrl | status | cmd | reserved => simp [WinReg.isData] at hd

/-- A stored word leaves every other word of the window: another register, another coordinate or
another limb (20_memory.md R67). -/
theorem State.windowWord_storeData_of_ne (s : State) {r r' : WinReg} (hr : r.Named)
    (hr' : r'.Named) (h : r' ≠ r) (x : Limb) : (s.storeData r x).windowWord r' = s.windowWord r' := by
  cases r <;> cases r'
  case n0p.n0p => exact absurd rfl h
  case n0q.n0q => exact absurd rfl h
  case v.v i j i' j' =>
    simp only [State.windowWord, State.storeData, State.readV_writeV]
    split_ifs with hi
    · have hj : j' ≠ j := fun hj => h (by rw [hi, hj])
      rw [getLimb_setLimb, if_neg hj, hi]
    · rfl
  case pt.pt k c j k' c' j' =>
    obtain ⟨hk, hc⟩ := hr
    obtain ⟨hk', hc'⟩ := hr'
    simp only [State.windowWord, State.storeData, State.readPt_writePt, ptIndex_inj hk' hk]
    split_ifs with hkk
    · subst hkk
      by_cases hcc : c' = c
      · have hj : j' ≠ j := fun hj => h (by rw [hcc, hj])
        rw [hcc, Point.coord_withCoord_same, getLimb_setLimb, if_neg hj]
      · rw [Point.coord_withCoord_of_ne _ hc hc' hcc]
    · rfl
  case const.const k j k' j' =>
    simp only [State.windowWord, State.storeData, Consts.get_set]
    split_ifs with hk
    · have hj : j' ≠ j := fun hj => h (by rw [hk, hj])
      rw [getLimb_setLimb, if_neg hj, hk]
    · rfl
  all_goals rfl

/-- A legal write to a data register stores its word while no command is pending (20_memory.md R64). -/
theorem State.legalWrite_of_idle {s : State} {r : WinReg} (hb : s.busy = false)
    (hd : r.isData = true) (x : Limb) : s.legalWrite r x = s.storeData r x := by
  cases r with
  | n0p | n0q | v | pt | const => simp [State.legalWrite, State.writeData, hb]
  | id | ctrl | status | cmd | reserved => simp [WinReg.isData] at hd

/-- The value of a limb whose word is known (00_scope.md R9). -/
theorem limbValue_of_getLimb {r : Wide} {j : Nat} {x : Limb} (h : getLimb r j = x) :
    limbValue r j = x.toNat := by
  rw [← h, getLimb_toNat]

/-- A legal write to a data register while no command is pending: the window shows the stored word,
and the command, the control and status registers and the events to come stay (20_memory.md R64). -/
theorem serveEvent_write_data {s : State} {off : BitVec 12} (h8 : off.toNat % 8 = 0)
    (hb : s.busy = false) (hd : (addrDecode off.toNat).isData = true) (x : Limb) :
    ∃ t, serveEvent (.write off 8 x) s = .next t ∧
      (∀ r, t.windowWord r = (s.storeData (addrDecode off.toNat) x).windowWord r) ∧
      t.pending = s.pending ∧ t.ctrl = s.ctrl ∧ t.status = s.status ∧ t.inbox = s.inbox := by
  refine ⟨_, serveEvent_write_aligned s h8 x, fun r => ?_, ?_⟩
  · rw [State.windowWord_withReply, State.legalWrite_of_idle hb hd]
  · simp [State.legalWrite_of_idle hb hd]

/-- Settles O52: the stored word is read back through the window as the limb and the bytes of its
register, and another aligned offset selects another register. -/
theorem writesReachOneWordOnly : Obligations.WritesReachOneWordOnly := by
  intro s off x h8 hb hd
  obtain ⟨t, hstep, hwin, hpending, hctrl, hstatus, hinbox⟩ := serveEvent_write_data h8 hb hd x
  have hback : t.windowWord (addrDecode off.toNat) = x :=
    (hwin _).trans (s.windowWord_storeData_same hd x)
  have hword : ∀ r, addrDecode off.toNat = r → t.windowWord r = x := fun r hr => hr ▸ hback
  have hidle : s.pending = none := by simpa [State.busy] using hb
  refine ⟨t, hstep, hback, hword .n0p, hword .n0q, fun f j h => limbValue_of_getLimb (hword _ h),
    fun k j h => limbValue_of_getLimb (hword _ h), fun k j h => limbValue_of_getLimb (hword _ h),
    fun k j h => limbValue_of_getLimb (hword _ h), fun j h => limbValue_of_getLimb (hword _ h),
    fun j h => limbValue_of_getLimb (hword _ h), fun j h => limbValue_of_getLimb (hword _ h),
    fun j h => limbValue_of_getLimb (hword _ h), fun j h => limbValue_of_getLimb (hword _ h),
    fun j h => limbValue_of_getLimb (hword _ h), fun j hj => ?_, fun other h8' hne => ?_,
    hpending.trans hidle, hctrl, hstatus, hinbox⟩
  · rw [t.windowByte_add h8 hj, hback, wordByte_toNat]
  · have hsel : addrDecode other.toNat ≠ addrDecode off.toNat := fun he =>
      hne (BitVec.eq_of_toNat_eq (eq_of_addrDecode_eq h8 h8' hd he))
    rw [hwin, s.windowWord_storeData_of_ne (addrDecode_named _) (addrDecode_named _) hsel]

end Sys2Proof.Machine

namespace Sys2Proof.Machine

/-! ### The completion of a command (10_state.md R43, 60_exceptions.md R283, R284) -/

/-- A command ends with the completion step, after its effect or, with an error code, with none. -/
theorem exec_completes (i : Instr) (s : State) :
    ∃ u code, exec i s = .next (u.complete code) ∧ EffectOf i s u ∧ (code ≠ .none → u = s) := by
  rcases exec_cases i s with ⟨-, u, heff, he⟩ | ⟨-, code, -, he⟩
  · exact ⟨u, .none, he, heff, fun h => absurd rfl h⟩
  · exact ⟨s, code, he, .inl rfl, fun _ => rfl⟩

/-- The state a command ends in, as its completion step leaves it. -/
theorem complete_of_exec {i : Instr} {s t : State} (h : exec i s = .next t) :
    ∃ u code, t = u.complete code ∧ EffectOf i s u ∧ (code ≠ .none → u = s) := by
  obtain ⟨u, code, he, heff, herr⟩ := exec_completes i s
  rw [he, Host.Outcome.next.injEq] at h
  exact ⟨u, code, h.symm, heff, herr⟩

/-- A value that decodes to a command completes as that command (10_state.md R43). -/
theorem completeWord_of_ok {w : Limb} {i : Instr} (h : decode w = .ok i) (s : State) :
    completeWord w s = exec i s := by
  simp [completeWord, h]

/-- A rejected value completes with its error code (60_exceptions.md R283). -/
theorem completeWord_of_error {w : Limb} {e : DecodeError} (h : decode w = .error e) (s : State) :
    completeWord w s = .next (s.complete (decodeErrorCode e)) := by
  simp [completeWord, h, State.raiseError]

/-- Every value ends with the completion step, after the effect of some command: a rejected value has
NOP's, which is none. -/
theorem completeWord_completes (w : Limb) (s : State) :
    ∃ i u code, completeWord w s = .next (u.complete code) ∧ EffectOf i s u := by
  cases hd : decode w with
  | ok i =>
    obtain ⟨u, code, he, heff, -⟩ := exec_completes i s
    exact ⟨i, u, code, (completeWord_of_ok hd s).trans he, heff⟩
  | error e => exact ⟨.nop, s, _, completeWord_of_error hd s, .inl rfl⟩

/-! ### What the effect of a command leaves unchanged (10_state.md R20, R27, R34) -/

section EffectFrame
variable {i : Instr} {s t : State}

/-- No effect touches a constant, `CTRL`, `CMD`, a sticky bit, the events to come or the answer. -/
theorem EffectOf.frame (h : EffectOf i s t) :
    t.consts = s.consts ∧ t.n0p = s.n0p ∧ t.n0q = s.n0q ∧ t.ctrl = s.ctrl ∧
      t.cmdLast = s.cmdLast ∧ t.status.ovr = s.status.ovr ∧ t.status.busErr = s.status.busErr ∧
      t.inbox = s.inbox ∧ t.reply = s.reply := by
  rcases h with rfl | ⟨d, r, -, rfl⟩ | ⟨d, P, -, rfl⟩ | ⟨a, b, x, y, -, rfl⟩ | ⟨k, b, -, rfl⟩ <;>
    simp

/-- An effect leaves every V register but the destination. -/
theorem EffectOf.readV (h : EffectOf i s t) {f : VField} (hf : destV i ≠ some f) :
    t.readV f = s.readV f := by
  rcases h with rfl | ⟨d, r, hd, rfl⟩ | ⟨d, P, -, rfl⟩ | ⟨a, b, x, y, -, rfl⟩ | ⟨k, b, -, rfl⟩
  case inr.inl =>
    have hne : f ≠ d := fun he => hf (he ▸ hd)
    rw [State.readV_writeV, if_neg hne]
  all_goals rfl

/-- An effect leaves every point register but the destination. -/
theorem EffectOf.readPt (h : EffectOf i s t) {k : PtField}
    (hk : ∀ d ∈ destPt i, ptIndex k ≠ ptIndex d) : t.readPt k = s.readPt k := by
  rcases h with rfl | ⟨d, r, -, rfl⟩ | ⟨d, P, hd, rfl⟩ | ⟨a, b, x, y, -, rfl⟩ | ⟨k', b, -, rfl⟩
  case inr.inr.inl => rw [State.readPt_writePt, if_neg (hk d hd)]
  all_goals rfl

/-- LT and EQ are ICMP's alone. -/
theorem EffectOf.compareFlags (h : EffectOf i s t) (hi : ∀ a b, i ≠ .icmp a b) :
    t.status.lt = s.status.lt ∧ t.status.eq = s.status.eq := by
  rcases h with rfl | ⟨d, r, -, rfl⟩ | ⟨d, P, -, rfl⟩ | ⟨a, b, x, y, he, -⟩ | ⟨k, b, -, rfl⟩
  case inr.inr.inr.inl => exact absurd he (hi a b)
  all_goals exact ⟨rfl, rfl⟩

/-- RES is PISINF's and PONC's alone. -/
theorem EffectOf.res (h : EffectOf i s t) (hinf : ∀ k, i ≠ .pisinf k) (honc : ∀ k, i ≠ .ponc k) :
    t.status.res = s.status.res := by
  rcases h with rfl | ⟨d, r, -, rfl⟩ | ⟨d, P, -, rfl⟩ | ⟨a, b, x, y, -, rfl⟩ | ⟨k, b, he | he, -⟩
  case inr.inr.inr.inr.inl => exact absurd he (hinf k)
  case inr.inr.inr.inr.inr => exact absurd he (honc k)
  all_goals rfl

/-- ICMP's borrow decides LT and excludes EQ, so no effect sets both (40_support.md R124, R125). -/
theorem EffectOf.flagsExclusive (h : EffectOf i s t) (hs : s.FlagsExclusive) :
    t.FlagsExclusive := by
  rcases h with rfl | ⟨d, r, -, rfl⟩ | ⟨d, P, -, rfl⟩ | ⟨a, b, x, y, -, rfl⟩ | ⟨k, b, -, rfl⟩
  case inr.inr.inr.inl =>
    rintro ⟨hlt, heq⟩
    obtain ⟨hborrow, -⟩ := of_decide_eq_true heq
    exact absurd (hborrow.symm.trans (of_decide_eq_true hlt)) (by decide)
  all_goals exact hs

end EffectFrame

/-- Settles O15: the completion step adds nothing to what the effect may write. -/
theorem commandsWriteOnlyTheirDestination : Obligations.CommandsWriteOnlyTheirDestination := by
  intro i s t h
  obtain ⟨u, code, rfl, heff, -⟩ := complete_of_exec h
  exact ⟨fun f hf => heff.readV hf, fun k hk => heff.readPt hk, heff.frame⟩

/-- Settles O16: by the effect's frames; an error has no effect at all. -/
theorem onlyTheFlagCommandsWriteFlags : Obligations.OnlyTheFlagCommandsWriteFlags := by
  intro i s t h
  obtain ⟨u, code, rfl, heff, herr⟩ := complete_of_exec h
  refine ⟨heff.compareFlags, heff.res, fun he => ?_⟩
  obtain rfl := herr he
  exact ⟨rfl, rfl, rfl⟩

/-- Settles O12: every value ends with the completion step, and no effect touches `CTRL`. -/
theorem completionSetsDoneAndRaisesIrq : Obligations.CompletionSetsDoneAndRaisesIrq := by
  refine ⟨fun s => by simp [State.irq], fun w s => ?_⟩
  obtain ⟨i, u, code, he, heff⟩ := completeWord_completes w s
  obtain ⟨-, -, -, hctrl, -⟩ := heff.frame
  exact ⟨_, he, rfl, rfl, rfl, by simp [State.irq, hctrl]⟩

/-- Settles O32: the point written is read back. -/
theorem pinfWritesCanonicalInfinity : Obligations.PinfWritesCanonicalInfinity := by
  intro ptd s h
  exact ⟨_, exec_pinf_ok h, rfl, by simp [Point.infinity]⟩

/-! ### The engine's turn and the step (10_state.md R43, 20_memory.md R71) -/

/-- With a command pending the engine's turn is its completion (10_state.md R43). -/
theorem engineStep_of_pending {s : State} {c : Pending} (h : s.pending = some c) :
    engineStep s = completeWord c.word s := by
  simp [engineStep, h]

/-- With nothing pending the engine's turn changes nothing (60_exceptions.md R308). -/
theorem engineStep_of_idle {s : State} (h : s.pending = none) : engineStep s = .next s := by
  simp [engineStep, h]

/-- With nothing to come from outside the step is the engine's turn. -/
theorem step_of_inbox_nil {s : State} (h : s.inbox = []) : step s = engineStep s := by
  simp [step, h]

/-- The oldest event is taken out and served (20_memory.md R71). -/
theorem step_of_inbox_cons {s : State} {e : Event} {rest : List Event} (h : s.inbox = e :: rest) :
    step s = serveEvent e { s with inbox := rest } := by
  simp [step, h]

/-- Settles O6: the equations of the step, of the engine's turn and of the completion, chained. -/
theorem stepCompletesThePendingCommand : Obligations.StepCompletesThePendingCommand := by
  refine ⟨fun s c i hp hd => ⟨fun hin => ?_, fun rest hin => ?_⟩, fun s c e hp hd hin => ?_,
    fun s hp => ⟨engineStep_of_idle hp, fun hin => ?_⟩, fun s e rest => step_of_inbox_cons,
    fun s i n w hd => ?_⟩
  · rw [step_of_inbox_nil hin, engineStep_of_pending hp, completeWord_of_ok hd]
  · rw [step_of_inbox_cons hin, serveEvent, engineStep_of_pending (s := { s with inbox := rest }) hp,
      completeWord_of_ok hd]
  · rw [step_of_inbox_nil hin, engineStep_of_pending hp, completeWord_of_error hd, State.complete]
  · rw [step_of_inbox_nil hin, engineStep_of_idle hp]
  · rw [State.withFetchWord, step_placeCommand, completeWord_of_ok hd]

/-! ### Writes to the window (10_state.md R31, R33, R36, R42, R44) -/

/-- A write to `CMD` or to a data register while a command is pending only sets OVR
(10_state.md R36, R44). -/
theorem State.legalWrite_of_busy {s : State} {r : WinReg} (hb : s.busy = true)
    (hr : r = .cmd ∨ r.isData = true) (x : Limb) : s.legalWrite r x = s.setOvr := by
  cases r with
  | cmd => exact if_pos hb
  | n0p | n0q | v | pt | const => exact if_pos hb
  | id | ctrl | status | reserved => simp [WinReg.isData] at hr

/-- A write to `CMD` while no command is pending is accepted (10_state.md R42). -/
theorem State.writeCmd_of_idle {s : State} (hb : s.busy = false) (x : Limb) :
    s.writeCmd x = s.accept x := by
  simp [State.writeCmd, hb]

/-- A write to `CTRL` with bit 2 set is a soft reset (70_reset_and_hazards.md R332). -/
theorem State.writeCtrl_of_srst (s : State) {x : Limb} (h : x.getLsbD 2 = true) :
    s.writeCtrl x = s.resetAll := if_pos h

/-- A write to `CTRL` with bit 2 clear stores its two fields (10_state.md R31). -/
theorem State.writeCtrl_of_not_srst (s : State) {x : Limb} (h : x.getLsbD 2 = false) :
    s.writeCtrl x = { s with ctrl := ⟨widthOfBit (x.getLsbD 0), x.getLsbD 1⟩ } :=
  if_neg (by rw [h]; decide)

/-- The width of a pending command is latched with it (10_state.md R42). -/
theorem State.runWidth_of_busy {s t : State} (hb : s.busy = true) (h : t.pending = s.pending) :
    t.runWidth = s.runWidth := by
  obtain ⟨c, hc⟩ := Option.isSome_iff_exists.mp hb
  simp [State.runWidth, h, hc]

/-- The offsets that the address map leaves reserved (20_memory.md R68). -/
theorem addrDecode_reserved {off : Nat} (h : 0x030 ≤ off ∧ off < 0x100 ∨ 0x980 ≤ off) :
    addrDecode off = .reserved := by
  unfold addrDecode
  iterate 9 rw [if_neg (by omega)]

/-- `CTRL` stands at one offset (20_memory.md R67). -/
theorem eq_of_addrDecode_eq_ctrl {off : Nat} (h : addrDecode off = .ctrl) : off = 0x008 := by
  by_contra hne
  unfold addrDecode at h
  split_ifs at h

/-- Settles O53: an aligned write is a legal write, and the busy window refuses this one. -/
theorem busyRefusesWritesWithOvr : Obligations.BusyRefusesWritesWithOvr := by
  intro s off x h8 hb hr
  rw [serveEvent_write_aligned s h8, State.legalWrite_of_busy hb hr, State.setOvr]

/-- Settles O56: the write is the acceptance of its word. -/
theorem cmdWritesAreAccepted : Obligations.CmdWritesAreAccepted := by
  intro s x hb
  have haccept : s.legalWrite (addrDecode (0x018#12 : BitVec 12).toNat) x = s.accept x :=
    State.writeCmd_of_idle hb x
  refine ⟨_, serveEvent_write_aligned s rfl x, ?_⟩
  rw [haccept]
  exact ⟨rfl, rfl, rfl, rfl, ⟨rfl, rfl, rfl, rfl, rfl⟩, rfl⟩

/-- Settles O57: `done && !bit` is the choice that the statement writes out. -/
theorem statusWritesClearByOnes : Obligations.StatusWritesClearByOnes := by
  intro s x
  have hwrite : s.legalWrite (addrDecode (0x010#12 : BitVec 12).toNat) x = s.writeStatus x := rfl
  rw [serveEvent_write_aligned s rfl, hwrite, State.writeStatus]
  simp [Bool.and_comm]

/-- Settles O58: the width of a pending command is latched, so a new SIZE does not reach it. -/
theorem ctrlWritesStoreSizeAndIe : Obligations.CtrlWritesStoreSizeAndIe := by
  intro s x hx
  have hwrite : s.legalWrite (addrDecode (0x008#12 : BitVec 12).toNat) x =
      { s with ctrl := ⟨widthOfBit (x.getLsbD 0), x.getLsbD 1⟩ } := s.writeCtrl_of_not_srst hx
  refine ⟨_, serveEvent_write_aligned s rfl x, ?_⟩
  rw [hwrite]
  exact ⟨rfl, fun hb => State.runWidth_of_busy hb rfl⟩

/-- Settles O60: the address map selects no register there, and `ID` has no write rule. -/
theorem reservedOffsetsAreInert : Obligations.ReservedOffsetsAreInert := by
  refine ⟨fun s off x h8 hoff => ?_, fun s => serveEvent_write_aligned s rfl⟩
  rw [serveEvent_read_aligned s h8, serveEvent_write_aligned s h8, addrDecode_reserved hoff]
  exact ⟨rfl, rfl⟩

/-! ### The words of `STATUS` and `CTRL` (10_state.md R30, R32) -/

/-- The bits of `STATUS` from bit 0 up; there are eleven, and the rest read 0 (10_state.md R32). -/
theorem State.statusWord_getLsbD (s : State) (j : Nat) :
    s.statusWord.getLsbD j =
      ([s.busy, s.status.done, s.status.ovr, s.status.busErr] ++
        (List.range 4).map s.status.err.bits.getLsbD ++
        [s.status.lt, s.status.eq, s.status.res]).getD j false := by
  change BitVec.getLsbD (w := 53 + 1 + 1 + 1 + 4 + 1 + 1 + 1 + 1) _ j = _
  simp only [State.statusWord, BitVec.getLsbD_append]
  by_cases h : j < 11
  · interval_cases j <;> simp [List.range_succ, -BitVec.getLsbD_eq_getElem]
  · obtain ⟨k, rfl⟩ := Nat.exists_eq_add_of_le' (Nat.not_lt.mp h)
    simp [List.range_succ]

/-- ERR reads at bits 7:4 of `STATUS` (10_state.md R32). -/
theorem State.statusWord_err (s : State) : s.statusWord.extractLsb' 4 4 = s.status.err.bits := by
  ext k hk
  rw [BitVec.getElem_extractLsb', s.statusWord_getLsbD]
  interval_cases k <;> rfl

/-- The bits of `CTRL` from bit 0 up; there are two, and the rest read 0 (10_state.md R30). -/
theorem State.ctrlWord_getLsbD (s : State) (j : Nat) :
    s.ctrlWord.getLsbD j = [sizeBit s.ctrl.size, s.ctrl.ie].getD j false := by
  change BitVec.getLsbD (w := 62 + 1 + 1) _ j = _
  simp only [State.ctrlWord, BitVec.getLsbD_append]
  rcases j with _ | _ | j <;> simp

/-- SIZE reads 1 at 512 bits only (10_state.md R30). -/
theorem sizeBit_eq_true_iff (w : Width) : sizeBit w = true ↔ w = .w512 := by
  cases w <;> decide

/-- Settles O59: each bit is an entry of its word's list of bits, and a reserved one lies past it. -/
theorem statusAndCtrlWordLayout : Obligations.StatusAndCtrlWordLayout := by
  intro s
  have herr : ∀ e, s.status.err = e → s.statusWord.extractLsb' 4 4 = e.bits :=
    fun e he => he ▸ s.statusWord_err
  have hbit := s.statusWord_getLsbD
  have hctrl := s.ctrlWord_getLsbD
  refine ⟨hbit 0, hbit 1, hbit 2, hbit 3, herr .none, herr .illegalOpcode, herr .reservedField,
    herr .size, herr .badModulus, herr .unreduced, hbit 8, hbit 9, hbit 10,
    fun j hj => (hbit j).trans (List.getD_eq_default _ _ hj), ?_, hctrl 1,
    fun j hj => (hctrl j).trans (List.getD_eq_default _ _ hj)⟩
  rw [hctrl 0]
  exact sizeBit_eq_true_iff s.ctrl.size

/-! ### The inputs of a pending command (10_state.md R44, 20_memory.md R75) -/

/-- The pending command, its width and the data registers are the same in two states. -/
def SameInputs (s t : State) : Prop :=
  t.pending = s.pending ∧ t.cmdLast = s.cmdLast ∧ t.runWidth = s.runWidth ∧ SameData s t

/-- A state has its own inputs; an update of any other field has them by unfolding. -/
theorem SameInputs.refl (s : State) : SameInputs s s :=
  ⟨rfl, rfl, rfl, rfl, rfl, rfl, rfl, rfl⟩

/-- While a command is pending, no legal write but a soft reset reaches its inputs: `CMD` and the
data registers refuse it, `STATUS` and `CTRL` are no inputs (10_state.md R31, R33, R36, R44). -/
theorem State.legalWrite_sameInputs {s : State} (hb : s.busy = true) {r : WinReg} {x : Limb}
    (h : r = .ctrl → x.getLsbD 2 = false) : SameInputs s (s.legalWrite r x) := by
  cases r with
  | id | reserved | status => exact SameInputs.refl s
  | ctrl =>
    rw [State.legalWrite, s.writeCtrl_of_not_srst (h rfl)]
    exact ⟨rfl, rfl, State.runWidth_of_busy hb rfl, rfl, rfl, rfl, rfl, rfl⟩
  | cmd =>
    rw [State.legalWrite_of_busy hb (.inl rfl)]
    exact SameInputs.refl s
  | n0p | n0q | v | pt | const =>
    rw [State.legalWrite_of_busy hb (.inr rfl)]
    exact SameInputs.refl s

/-- A legal access is 8 bytes at a multiple of 8 (20_memory.md R61). -/
theorem legalAccess_iff (off : BitVec 12) (bytes : Nat) :
    legalAccess off bytes = true ↔ bytes = 8 ∧ off.toNat % 8 = 0 := by
  simp [legalAccess]

/-- A host read leaves the inputs. -/
theorem State.hostRead_sameInputs (s : State) (off : BitVec 12) (bytes : Nat) :
    SameInputs s (s.hostRead off bytes) := by
  rcases s.hostRead_cases off bytes with ⟨-, h⟩ | ⟨-, h⟩ <;> rw [h] <;>
    exact SameInputs.refl s

/-- A host write while a command is pending leaves its inputs, or is a soft reset. -/
theorem State.hostWrite_while_busy {s : State} (hb : s.busy = true) (off : BitVec 12) (bytes : Nat)
    (x : Limb) :
    SameInputs s (s.hostWrite off bytes x) ∨
      off = 0x008#12 ∧ bytes = 8 ∧ x.getLsbD 2 = true ∧
        s.hostWrite off bytes x = { s.resetAll with reply := some (.written false) } := by
  rcases s.hostWrite_cases off bytes x with ⟨hlegal, h⟩ | ⟨-, h⟩ <;> rw [h]
  · by_cases hsrst : addrDecode off.toNat = .ctrl ∧ x.getLsbD 2 = true
    · obtain ⟨hctrl, hx⟩ := hsrst
      obtain ⟨hbytes, -⟩ := (legalAccess_iff off bytes).mp hlegal
      rw [hctrl, State.legalWrite, s.writeCtrl_of_srst hx]
      exact .inr ⟨BitVec.eq_of_toNat_eq (eq_of_addrDecode_eq_ctrl hctrl), hbytes, hx, rfl⟩
    · exact .inl (State.legalWrite_sameInputs hb fun hr => by simpa [hr] using hsrst)
  · exact .inl (SameInputs.refl s)

/-- Settles O54: a read reaches no input, and a write reaches one by a soft reset only. -/
theorem inputsAreFixedWhilePending : Obligations.InputsAreFixedWhilePending := by
  intro s t e hb hengine hreset ht
  cases e with
  | read off bytes =>
    obtain rfl := Host.Outcome.next.inj ht
    exact .inl (s.hostRead_sameInputs off bytes)
  | write off bytes x =>
    obtain rfl := Host.Outcome.next.inj ht
    rcases State.hostWrite_while_busy hb off bytes x with h | ⟨rfl, rfl, hx, h⟩
    · exact .inl h
    · exact .inr ⟨x, rfl, hx, h⟩
  | engine => exact absurd rfl hengine
  | hardReset => exact absurd rfl hreset

/-! ### The invariant that every step keeps (40_support.md R124, 10_state.md R36, R42) -/

/-- With nothing pending the invariant is the flags' alone. -/
theorem State.Inv.of_idle {s : State} (hf : s.FlagsExclusive) (hp : s.pending = none) : s.Inv :=
  ⟨hf, fun c hc => by simp [hp] at hc⟩

/-- The invariant reads the flags, DONE, ERR, `CMD` and the pending command only. -/
theorem State.Inv.congr {s t : State} (h : s.Inv) (hst : t.status = s.status)
    (hc : t.cmdLast = s.cmdLast) (hp : t.pending = s.pending) : t.Inv := by
  simpa [State.Inv, State.FlagsExclusive, State.PendingConsistent, hst, hc, hp] using h

/-- Either reset clears the flags and abandons the pending command. -/
theorem State.inv_resetAll (s : State) : s.resetAll.Inv :=
  .of_idle (fun ⟨hlt, _⟩ => Bool.noConfusion hlt) rfl

/-- Acceptance latches the word that `CMD` reads back and clears DONE and ERR (10_state.md R42). -/
theorem State.Inv.accept {s : State} (h : s.Inv) (x : Limb) : (s.accept x).Inv := by
  obtain ⟨hflags, -⟩ := h
  refine ⟨hflags, fun c hc => ?_⟩
  obtain rfl := Option.some.inj hc
  exact ⟨rfl, rfl, rfl⟩

/-- A write to `STATUS` can only clear DONE (10_state.md R33). -/
theorem State.Inv.writeStatus {s : State} (h : s.Inv) (x : Limb) : (s.writeStatus x).Inv := by
  obtain ⟨hflags, hpend⟩ := h
  refine ⟨hflags, fun c hc => ?_⟩
  obtain ⟨hword, hdone, herr⟩ := hpend c hc
  exact ⟨hword, by simp [State.writeStatus, hdone], herr⟩

/-- A write to `CTRL` is a reset or leaves the status and the command (10_state.md R31). -/
theorem State.Inv.writeCtrl {s : State} (h : s.Inv) (x : Limb) : (s.writeCtrl x).Inv := by
  unfold State.writeCtrl
  split
  · exact s.inv_resetAll
  · exact h.congr rfl rfl rfl

/-- A write to `CMD` is accepted or sets OVR (10_state.md R36, R42). -/
theorem State.Inv.writeCmd {s : State} (h : s.Inv) (x : Limb) : (s.writeCmd x).Inv := by
  unfold State.writeCmd
  split
  · exact h
  · exact h.accept x

/-- A write to a data register is stored or sets OVR (10_state.md R44). -/
theorem State.Inv.writeData {s : State} (h : s.Inv) (r : WinReg) (x : Limb) :
    (s.writeData r x).Inv := by
  unfold State.writeData
  split
  · exact h
  · exact h.congr (s.storeData_status r x) (s.storeData_cmdLast r x) (s.storeData_pending r x)

/-- Every legal write keeps the invariant. -/
theorem State.Inv.legalWrite {s : State} (h : s.Inv) (r : WinReg) (x : Limb) :
    (s.legalWrite r x).Inv := by
  cases r with
  | id | reserved => exact h
  | ctrl => exact h.writeCtrl x
  | status => exact h.writeStatus x
  | cmd => exact h.writeCmd x
  | n0p | n0q | v | pt | const => exact h.writeData _ x

/-- A host read sets at most BUSERR, which is no part of the invariant (20_memory.md R62). -/
theorem State.Inv.hostRead {s : State} (h : s.Inv) (off : BitVec 12) (bytes : Nat) :
    (s.hostRead off bytes).Inv := by
  rcases s.hostRead_cases off bytes with ⟨-, he⟩ | ⟨-, he⟩ <;> rw [he] <;> exact h

/-- A host write is a legal write, or sets BUSERR only (20_memory.md R62). -/
theorem State.Inv.hostWrite {s : State} (h : s.Inv) (off : BitVec 12) (bytes : Nat) (x : Limb) :
    (s.hostWrite off bytes x).Inv := by
  rcases s.hostWrite_cases off bytes x with ⟨-, he⟩ | ⟨-, he⟩ <;> rw [he]
  · exact h.legalWrite _ x
  · exact h

/-- A completion leaves nothing pending, and no effect sets LT and EQ (10_state.md R43). -/
theorem State.Inv.completeWord {s t : State} {w : Limb} (h : s.Inv)
    (ht : Machine.completeWord w s = .next t) : t.Inv := by
  obtain ⟨i, u, code, he, heff⟩ := completeWord_completes w s
  obtain ⟨hflags, -⟩ := h
  obtain rfl := Host.Outcome.next.inj (he.symm.trans ht)
  exact .of_idle (heff.flagsExclusive hflags) rfl

/-- The engine's turn keeps the invariant. -/
theorem State.Inv.engineStep {s t : State} (h : s.Inv) (ht : Machine.engineStep s = .next t) :
    t.Inv := by
  cases hp : s.pending with
  | none =>
    rw [engineStep_of_idle hp] at ht
    exact Host.Outcome.next.inj ht ▸ h
  | some c =>
    rw [engineStep_of_pending hp] at ht
    exact h.completeWord ht

/-- Every event keeps the invariant. -/
theorem State.Inv.serveEvent {s t : State} {e : Event} (h : s.Inv)
    (ht : Machine.serveEvent e s = .next t) : t.Inv := by
  cases e with
  | read off bytes => exact Host.Outcome.next.inj ht ▸ h.hostRead off bytes
  | write off bytes x => exact Host.Outcome.next.inj ht ▸ h.hostWrite off bytes x
  | engine => exact h.engineStep ht
  | hardReset => exact Host.Outcome.next.inj ht ▸ s.inv_resetAll

/-- Settles O10: a step is the engine's turn or one event served, and each keeps the invariant. -/
theorem stepKeepsTheInvariant : Obligations.StepKeepsTheInvariant := by
  intro s t h ht
  rcases step_cases s with ⟨-, he⟩ | ⟨e, rest, -, he⟩ <;> rw [he] at ht
  · exact h.engineStep ht
  · have hrest : { s with inbox := rest }.Inv := h.congr rfl rfl rfl
    exact hrest.serveEvent ht

end Sys2Proof.Machine

namespace Sys2Proof.Machine

/-! ### The address map, one range at a time (20_memory.md R67) -/

/-- The offsets of the V registers. -/
theorem addrDecode_of_mem_v {off : Nat} (h : 0x100 ≤ off ∧ off < 0x500) :
    addrDecode off = .v (BitVec.ofNat 4 ((off - 0x100) / 0x40)) (limbOf (off - 0x100)) := by
  unfold addrDecode
  iterate 6 rw [if_neg (by omega)]
  rw [if_pos h]

/-- The offsets of the point registers. -/
theorem addrDecode_of_mem_pt {off : Nat} (h : 0x500 ≤ off ∧ off < 0x800) :
    addrDecode off = .pt (BitVec.ofNat 4 ((off - 0x500) / 0xC0))
      (BitVec.ofNat 4 ((off - 0x500) % 0xC0 / 0x40)) (limbOf (off - 0x500)) := by
  unfold addrDecode
  iterate 7 rw [if_neg (by omega)]
  rw [if_pos h]

/-- The offsets of the constant registers. -/
theorem addrDecode_of_mem_const {off : Nat} (h : 0x800 ≤ off ∧ off < 0x980) :
    addrDecode off = .const (constRegOf ((off - 0x800) / 0x40)) (limbOf (off - 0x800)) := by
  unfold addrDecode
  iterate 8 rw [if_neg (by omega)]
  rw [if_pos h]

/-- Limb `j` stands `8 * j` past the start of its 64-byte register. -/
theorem limbOf_eq {off n : Nat} {j : Fin 8} (h : off = 0x40 * n + 8 * j) : limbOf off = j := by
  apply Fin.ext
  simp only [limbOf]
  omega

/-- The constant registers are numbered in the order of the address map. -/
theorem constRegOf_constIndex (r : ConstReg) : constRegOf (constIndex r) = r := by
  cases r <;> rfl

/-- There are six constant registers. -/
theorem constIndex_lt (r : ConstReg) : constIndex r < 6 := by
  cases r <;> decide

/-- Every data register that the map names is selected by its own offset: with
`dataOffset_addrDecode`, the map is a bijection there. -/
theorem addrDecode_dataOffset {r : WinReg} (hn : r.Named) (hd : r.isData = true) :
    addrDecode r.dataOffset = r := by
  cases r with
  | n0p | n0q => rfl
  | v i j =>
    have hi : (0x100 + 0x40 * i.toNat + 8 * j.val - 0x100) / 0x40 = i.toNat := by omega
    simp only [WinReg.dataOffset, vBase]
    rw [addrDecode_of_mem_v (by omega), hi, BitVec.ofNat_toNat, BitVec.setWidth_eq,
      limbOf_eq (n := i.toNat) (j := j) (by omega)]
  | pt k c j =>
    obtain ⟨hk, hc⟩ := hn
    have hpoint : (0x500 + 0xC0 * k.toNat + 0x40 * c.toNat + 8 * j.val - 0x500) / 0xC0 = k.toNat :=
      by omega
    have hcoord :
        (0x500 + 0xC0 * k.toNat + 0x40 * c.toNat + 8 * j.val - 0x500) % 0xC0 / 0x40 = c.toNat := by
      omega
    simp only [WinReg.dataOffset, ptBase]
    rw [addrDecode_of_mem_pt (by omega), hpoint, hcoord, BitVec.ofNat_toNat, BitVec.ofNat_toNat,
      BitVec.setWidth_eq, BitVec.setWidth_eq,
      limbOf_eq (n := 3 * k.toNat + c.toNat) (j := j) (by omega)]
  | const r j =>
    have hr := constIndex_lt r
    have hindex : (0x800 + 0x40 * constIndex r + 8 * j.val - 0x800) / 0x40 = constIndex r := by
      omega
    simp only [WinReg.dataOffset, constBase]
    rw [addrDecode_of_mem_const (by omega), hindex, constRegOf_constIndex,
      limbOf_eq (n := constIndex r) (j := j) (by omega)]
  | id | ctrl | status | cmd | reserved => simp [WinReg.isData] at hd

/-- A number below 16 is the value of its 4-bit field. -/
theorem toNat_ofNat_four {n : Nat} (h : n < 16) : (BitVec.ofNat 4 n).toNat = n := by
  rw [BitVec.toNat_ofNat, Nat.mod_eq_of_lt h]

/-- Settles O50: each offset is the `dataOffset` of the register it names, which selects it. -/
theorem offsetsSelectTheMappedRegisters : Obligations.OffsetsSelectTheMappedRegisters := by
  refine ⟨rfl, rfl, rfl, rfl, rfl, rfl, fun i j => ?_, fun k c j => ?_, fun j => ?_,
    fun off h => addrDecode_reserved (h.imp_right And.left)⟩
  · have hsel := addrDecode_dataOffset (r := .v (BitVec.ofNat 4 i) j) trivial rfl
    rwa [WinReg.dataOffset, vBase, toNat_ofNat_four i.isLt] at hsel
  · have hk : (BitVec.ofNat 4 k).toNat = k := toNat_ofNat_four (by omega)
    have hc : (BitVec.ofNat 4 c).toNat = c := toNat_ofNat_four (by omega)
    have hsel := addrDecode_dataOffset (r := .pt (BitVec.ofNat 4 k) (BitVec.ofNat 4 c) j)
      ⟨by omega, by omega⟩ rfl
    rwa [WinReg.dataOffset, ptBase, hk, hc] at hsel
  · have hsel : ∀ r : ConstReg, addrDecode (constBase r + 8 * j) = .const r j :=
      fun r => addrDecode_dataOffset (r := .const r j) trivial rfl
    exact ⟨hsel .p, hsel .r2p, hsel .a, hsel .b, hsel .q, hsel .r2q⟩

/-! ### Illegal accesses of the window (20_memory.md R62) -/

/-- An access of another width or off the multiples of 8 is illegal (20_memory.md R61). -/
theorem legalAccess_eq_false {off : BitVec 12} {bytes : Nat} (h : bytes ≠ 8 ∨ off.toNat % 8 ≠ 0) :
    legalAccess off bytes = false := by
  rw [Bool.eq_false_iff, ne_eq, legalAccess_iff, not_and_or]
  exact h

/-- An illegal read answers 0 and sets BUSERR (20_memory.md R62). -/
theorem State.hostRead_of_illegal (s : State) {off : BitVec 12} {bytes : Nat}
    (h : legalAccess off bytes = false) :
    s.hostRead off bytes = { s.setBusErr with reply := some (.data 0 Config.busErrorSignal) } := by
  rw [State.hostRead, h, if_neg Bool.false_ne_true]

/-- An illegal write sets BUSERR and stores nothing (20_memory.md R62). -/
theorem State.hostWrite_of_illegal (s : State) {off : BitVec 12} {bytes : Nat} (x : Limb)
    (h : legalAccess off bytes = false) :
    s.hostWrite off bytes x =
      { s.setBusErr with reply := some (.written Config.busErrorSignal) } := by
  rw [State.hostWrite, h, if_neg Bool.false_ne_true]

/-- Settles O55: an illegal access takes the other branch of `hostRead` and `hostWrite`, which only
sets BUSERR. -/
theorem illegalAccessesOnlySetBuserr : Obligations.IllegalAccessesOnlySetBuserr := by
  intro s off n x h
  have hillegal := legalAccess_eq_false h
  exact ⟨congrArg Host.Outcome.next (s.hostRead_of_illegal hillegal),
    congrArg Host.Outcome.next (s.hostWrite_of_illegal x hillegal)⟩

end Sys2Proof.Machine

namespace Sys2Proof

/-! ### The fields of a value written to `CMD`, as numbers (30_encoding.md R91) -/

section Fields
variable (w : Limb)

@[simp] theorem cmdFields_high_toNat : (cmdFields w).high.toNat = w.toNat / 2 ^ 32 := by
  have hw := w.isLt
  simp only [cmdFields, BitVec.extractLsb'_toNat, Nat.shiftRight_eq_div_pow]
  omega

@[simp] theorem cmdFields_opc_toNat : (cmdFields w).opc.toNat = w.toNat / 2 ^ 26 % 64 := by
  simp [cmdFields, BitVec.extractLsb'_toNat, Nat.shiftRight_eq_div_pow]

@[simp] theorem cmdFields_m_toNat : (cmdFields w).m.toNat = w.toNat / 2 ^ 25 % 2 := by
  simp [cmdFields, BitVec.extractLsb'_toNat, Nat.shiftRight_eq_div_pow]

@[simp] theorem cmdFields_res1_toNat : (cmdFields w).res1.toNat = w.toNat / 2 ^ 16 % 512 := by
  simp [cmdFields, BitVec.extractLsb'_toNat, Nat.shiftRight_eq_div_pow]

@[simp] theorem cmdFields_rd_toNat : (cmdFields w).rd.toNat = w.toNat / 2 ^ 12 % 16 := by
  simp [cmdFields, BitVec.extractLsb'_toNat, Nat.shiftRight_eq_div_pow]

@[simp] theorem cmdFields_rs1_toNat : (cmdFields w).rs1.toNat = w.toNat / 2 ^ 8 % 16 := by
  simp [cmdFields, BitVec.extractLsb'_toNat, Nat.shiftRight_eq_div_pow]

@[simp] theorem cmdFields_rs2_toNat : (cmdFields w).rs2.toNat = w.toNat / 2 ^ 4 % 16 := by
  simp [cmdFields, BitVec.extractLsb'_toNat, Nat.shiftRight_eq_div_pow]

@[simp] theorem cmdFields_res0_toNat : (cmdFields w).res0.toNat = w.toNat % 16 := by
  simp [cmdFields, BitVec.extractLsb'_toNat, Nat.shiftRight_eq_div_pow]

end Fields

/-- The fields cover all 64 bits: a value is known by its fields. -/
theorem cmdFields_injective : Function.Injective cmdFields := by
  intro w w' h
  have hhigh := congrArg (·.high.toNat) h
  have hopc := congrArg (·.opc.toNat) h
  have hm := congrArg (·.m.toNat) h
  have hres1 := congrArg (·.res1.toNat) h
  have hrd := congrArg (·.rd.toNat) h
  have hrs1 := congrArg (·.rs1.toNat) h
  have hrs2 := congrArg (·.rs2.toNat) h
  have hres0 := congrArg (·.res0.toNat) h
  simp only [cmdFields_high_toNat, cmdFields_opc_toNat, cmdFields_m_toNat, cmdFields_res1_toNat,
    cmdFields_rd_toNat, cmdFields_rs1_toNat, cmdFields_rs2_toNat, cmdFields_res0_toNat]
    at hhigh hopc hm hres1 hrd hrs1 hrs2 hres0
  apply BitVec.eq_of_toNat_eq
  omega

/-! ### The rows of the opcode map (30_encoding.md R95, R96) -/

/-- The set that an `M` bit selects has that bit (30_encoding.md R94). -/
@[simp] theorem modBit_modSelOf (m : BitVec 1) : modBit (modSelOf m) = m := by
  revert m
  decide

/-- A row with `M` column 0 is well used when `M` and its unused fields are zero. -/
@[simp] theorem plainRow_eq_iff (f : CmdFields) (i j : Instr) (unused : List (BitVec 4)) :
    plainRow f j unused = ⟨i, true⟩ ↔ j = i ∧ f.m = 0#1 ∧ ∀ x ∈ unused, x = 0#4 := by
  simp [plainRow]

/-- A row whose `M` column is `sel` is well used when its unused fields are zero. -/
@[simp] theorem selRow_eq_iff (i j : Instr) (unused : List (BitVec 4)) :
    selRow j unused = ⟨i, true⟩ ↔ j = i ∧ ∀ x ∈ unused, x = 0#4 := by
  simp [selRow]

/-- The row of a command names every field of its word: what the map reads out of well-used fields
packs back into them. -/
theorem encode_of_readRow {f : CmdFields} {i : Instr} (h : readRow f = some ⟨i, true⟩) :
    encode i = packWord f.opc f.m f.rd f.rs1 f.rs2 := by
  have hopc : f.opc = BitVec.ofNat 6 f.opc.toNat := by simp
  rw [hopc]
  unfold readRow at h
  generalize f.opc.toNat = n at h ⊢
  split at h
  case h_22 => cases h
  all_goals
    rw [Option.some.injEq] at h
    simp only [plainRow_eq_iff, selRow_eq_iff, List.forall_mem_cons] at h
    obtain ⟨rfl, hzero⟩ := h
    simp [encode, hzero]

/-- The opcodes without a row are the reserved ones (30_encoding.md R96). -/
theorem readRow_eq_none_iff (f : CmdFields) :
    readRow f = none ↔ 3 ≤ f.opc.toNat ∧ f.opc.toNat ≤ 7 ∨ 0x1A ≤ f.opc.toNat := by
  unfold readRow
  split
  case h_22 =>
    simp only [imp_false, true_iff] at *
    omega
  all_goals simp [*]

/-! ### What `decode` answers (30_encoding.md R100) -/

/-- A value with a row decodes to the row's command when its reserved bits and its unused fields are
zero and its operands are legal, and is else rejected with RESERVED_FIELD. -/
theorem decode_of_readRow {w : Limb} {r : RowReading} (h : readRow (cmdFields w) = some r) :
    decode w = if reservedBitsZero (cmdFields w) && r.unusedZero && wellFormed r.instr then
      .ok r.instr else .error .reservedField := by
  simp only [decode, h]

/-- A value is rejected with ILLEGAL_OPCODE exactly when the map has no row for its opcode. -/
theorem decode_eq_illegalOpcode_iff (w : Limb) :
    decode w = .error .illegalOpcode ↔ readRow (cmdFields w) = none := by
  cases h : readRow (cmdFields w) with
  | none => simp [decode, h]
  | some r =>
    rw [decode_of_readRow h]
    split <;> simp

/-- A value decodes to `i` exactly when the map reads `i` out of it, with every reserved bit and unused
field zero and the operands legal. -/
theorem decode_eq_ok_iff (w : Limb) (i : Instr) :
    decode w = .ok i ↔ reservedBitsZero (cmdFields w) = true ∧
      readRow (cmdFields w) = some ⟨i, true⟩ ∧ wellFormed i = true := by
  cases h : readRow (cmdFields w) with
  | none => simp [(decode_eq_illegalOpcode_iff w).mpr h]
  | some r =>
    obtain ⟨j, unused⟩ := r
    rw [decode_of_readRow h]
    constructor
    · intro hok
      split at hok
      case isTrue hc =>
        simp only [Bool.and_eq_true] at hc
        obtain ⟨⟨hres, rfl⟩, hwf⟩ := hc
        obtain rfl : j = i := Except.ok.inj hok
        exact ⟨hres, rfl, hwf⟩
      case isFalse => cases hok
    · rintro ⟨hres, hrow, hwf⟩
      obtain ⟨rfl, rfl⟩ : j = i ∧ unused = true := by simpa using hrow
      simp [hres, hwf]

/-- The word of every command is read back by its row, with every reserved bit and unused field zero. -/
theorem reservedBits_statement (i : Instr) : Laws.ReservedBits.Statement i := by
  cases i with
  | nop => exact Laws.ReservedBits.nop
  | mov vd vs => exact Laws.ReservedBits.mov vd vs
  | icmp vs1 vs2 => exact Laws.ReservedBits.icmp vs1 vs2
  | mmul m vd vs1 vs2 => exact Laws.ReservedBits.mmul m vd vs1 vs2
  | madd m vd vs1 vs2 => exact Laws.ReservedBits.madd m vd vs1 vs2
  | msub m vd vs1 vs2 => exact Laws.ReservedBits.msub m vd vs1 vs2
  | mdbl m vd vs => exact Laws.ReservedBits.mdbl m vd vs
  | tomont m vd vs => exact Laws.ReservedBits.tomont m vd vs
  | frommont m vd vs => exact Laws.ReservedBits.frommont m vd vs
  | mexp m vd vbase vexp => exact Laws.ReservedBits.mexp m vd vbase vexp
  | minv m vd vs => exact Laws.ReservedBits.minv m vd vs
  | pinf ptd => exact Laws.ReservedBits.pinf ptd
  | pmov ptd pts => exact Laws.ReservedBits.pmov ptd pts
  | pget vd pts c => exact Laws.ReservedBits.pget vd pts c
  | pput ptd vs c => exact Laws.ReservedBits.pput ptd vs c
  | pisinf pts => exact Laws.ReservedBits.pisinf pts
  | ponc pts => exact Laws.ReservedBits.ponc pts
  | pdbl ptd pts => exact Laws.ReservedBits.pdbl ptd pts
  | padd ptd pts1 pts2 => exact Laws.ReservedBits.padd ptd pts1 pts2
  | paff ptd pts => exact Laws.ReservedBits.paff ptd pts
  | pmul ptd pts vk => exact Laws.ReservedBits.pmul ptd pts vk

/-- The reserved bits are zero exactly when their three fields are (30_encoding.md R97). -/
theorem reservedBitsZero_iff (f : CmdFields) :
    reservedBitsZero f = true ↔ f.high = 0 ∧ f.res1 = 0 ∧ f.res0 = 0 := by
  simp [reservedBitsZero, and_assoc]

/-- Fields with zero reserved bits are those of the word packed from the others. -/
theorem cmdFields_packWord_self {f : CmdFields} (h : reservedBitsZero f = true) :
    cmdFields ((packWord f.opc f.m f.rd f.rs1 f.rs2).setWidth 64) = f := by
  obtain ⟨hhigh, hres1, hres0⟩ := (reservedBitsZero_iff f).mp h
  rw [cmdFields_packWord, ← hhigh, ← hres1, ← hres0]

/-- Settles O2: the row of the command's own word reads the command back. -/
theorem decodeOfEncodeIsTheCommand : Obligations.DecodeOfEncodeIsTheCommand := by
  intro i hwf
  obtain ⟨hres, hrow⟩ := reservedBits_statement i
  exact (decode_eq_ok_iff _ i).mpr ⟨hres, hrow, hwf⟩

/-- Settles O3: the row's command packs the fields it was read from, and the fields fix the value. -/
theorem acceptedWordsEncodeBack : Obligations.AcceptedWordsEncodeBack := by
  intro w i h
  obtain ⟨hres, hrow, hwf⟩ := (decode_eq_ok_iff w i).mp h
  refine ⟨hwf, cmdFields_injective ?_⟩
  rw [cmdValue, encode_of_readRow hrow, cmdFields_packWord_self hres]

/-- Settles O1: each of the words is the word of its command, which decodes to it by O2. -/
theorem writtenOutWordsDecode : Obligations.WrittenOutWordsDecode := by
  have h := decodeOfEncodeIsTheCommand
  exact ⟨h .nop rfl, h (.mov 3 1) rfl, h (.icmp 1 2) rfl, h (.mmul .p 3 1 2) rfl,
    h (.mmul .q 3 1 2) rfl, h (.madd .p 3 1 2) rfl, h (.msub .p 3 1 2) rfl, h (.mdbl .p 3 1) rfl,
    h (.tomont .p 3 1) rfl, h (.frommont .p 3 1) rfl, h (.mexp .p 3 1 2) rfl, h (.minv .p 3 1) rfl,
    h (.minv .q 3 1) rfl, h (.pinf 2) rfl, h (.pmov 0 1) rfl, h (.pget 5 1 1) rfl,
    h (.pput 0 2 2) rfl, h (.pisinf 1) rfl, h (.ponc 1) rfl, h (.pdbl 0 1) rfl,
    h (.padd 0 1 2) rfl, h (.paff 0 1) rfl, h (.pmul 0 1 4) rfl⟩
/-! ### The conditions of 30_encoding.md R97, on the fields -/

/-- The conditions of R97 that depend on the row: `M` or an unused field set, a point field above 3, a
coordinate selector above 2. -/
def CmdFields.RowBad (f : CmdFields) : Prop :=
  ((f.opc.toNat ≤ 2 ∨ 0x10 ≤ f.opc.toNat) ∧ f.m.toNat = 1) ∨
  (f.opc.toNat ∈ [0x00, 0x02, 0x14, 0x15] ∧ f.rd.toNat ≠ 0) ∨
  (f.opc.toNat ∈ [0x00, 0x10] ∧ f.rs1.toNat ≠ 0) ∨
  (f.opc.toNat ∈ [0x00, 0x01, 0x0B, 0x0C, 0x0D, 0x0F, 0x10, 0x11, 0x14, 0x15, 0x16, 0x18] ∧
    f.rs2.toNat ≠ 0) ∨
  (f.opc.toNat ∈ [0x10, 0x11, 0x13, 0x16, 0x17, 0x18, 0x19] ∧ 3 < f.rd.toNat) ∨
  (f.opc.toNat ∈ [0x11, 0x12, 0x14, 0x15, 0x16, 0x17, 0x18, 0x19] ∧ 3 < f.rs1.toNat) ∨
  (f.opc.toNat ∈ [0x17] ∧ 3 < f.rs2.toNat) ∨
  (f.opc.toNat ∈ [0x12, 0x13] ∧ 2 < f.rs2.toNat)

/-- Any condition of R97. -/
def CmdFields.Bad (f : CmdFields) : Prop :=
  f.high.toNat ≠ 0 ∨ f.res1.toNat ≠ 0 ∨ f.res0.toNat ≠ 0 ∨ f.RowBad

/-- A row's two tests fail exactly on the conditions of R97 for its opcode. -/
theorem CmdFields.rowBad_iff {f : CmdFields} {r : RowReading} (h : readRow f = some r) :
    f.RowBad ↔ (r.unusedZero && wellFormed r.instr) = false := by
  unfold readRow at h
  unfold CmdFields.RowBad
  generalize f.opc.toNat = n at h ⊢
  split at h
  case h_22 => cases h
  all_goals
    obtain rfl := Option.some.inj h
    simp [plainRow, selRow, wellFormed, ptFieldOk, coordFieldOk, BitVec.toNat_eq] <;> omega

/-- The reserved bits of every command, as numbers (30_encoding.md R97). -/
theorem reservedBitsZero_eq_false_iff (f : CmdFields) :
    reservedBitsZero f = false ↔ f.high.toNat ≠ 0 ∨ f.res1.toNat ≠ 0 ∨ f.res0.toNat ≠ 0 := by
  rw [← Bool.not_eq_true, reservedBitsZero_iff]
  simp only [BitVec.toNat_eq]
  tauto

/-- Where the map has a row, a condition of R97 holds exactly when one of the decoder's tests fails. -/
theorem CmdFields.bad_iff {f : CmdFields} {r : RowReading} (h : readRow f = some r) :
    f.Bad ↔ (reservedBitsZero f && r.unusedZero && wellFormed r.instr) = false := by
  simp only [CmdFields.Bad, CmdFields.rowBad_iff h, Bool.and_eq_false_iff,
    reservedBitsZero_eq_false_iff, or_assoc]

/-- A value with a defined opcode is rejected with RESERVED_FIELD under a condition of R97, and decodes
under none. -/
theorem decode_of_defined {w : Limb}
    (h : (cmdFields w).opc.toNat ≤ 2 ∨ 8 ≤ (cmdFields w).opc.toNat ∧ (cmdFields w).opc.toNat ≤ 0x19) :
    ((cmdFields w).Bad → decode w = .error .reservedField) ∧
      (¬ (cmdFields w).Bad → ∃ i, decode w = .ok i) := by
  have hrow : readRow (cmdFields w) ≠ none := by rw [ne_eq, readRow_eq_none_iff]; omega
  obtain ⟨r, hr⟩ := Option.ne_none_iff_exists'.mp hrow
  rw [CmdFields.bad_iff hr, decode_of_readRow hr]
  exact ⟨fun hf => by simp [hf], fun ht => ⟨r.instr, by simp [ht]⟩⟩

end Sys2Proof

namespace Sys2Proof.Machine

/-! ### Rejected values (30_encoding.md R96, R97, 60_exceptions.md R284) -/

/-- A rejected value completes with its error code, which `STATUS.ERR` shows, and nothing else. -/
theorem completeWord_rejected {w : Limb} {e : DecodeError} (h : decode w = .error e) (s : State) :
    ∃ t, completeWord w s = .next t ∧
      t = { s with status := { s.status with err := decodeErrorCode e, done := true },
                   pending := none } ∧
      t.statusWord.extractLsb' 4 4 = (decodeErrorCode e).bits :=
  ⟨_, completeWord_of_error h s, rfl, State.statusWord_err _⟩

/-- Settles O4: the opcode map has no row for a reserved opcode. -/
theorem reservedOpcodesFail : Obligations.ReservedOpcodesFail := by
  refine ⟨fun w s h => completeWord_rejected (e := .illegalOpcode) ?_ s, ?_⟩
  · rw [decode_eq_illegalOpcode_iff, readRow_eq_none_iff, cmdFields_opc_toNat]
    exact h
  · exact decodeOfEncodeIsTheCommand .nop rfl

/-- Settles O5: on a defined opcode the conditions of R97 are the row's tests that fail. -/
theorem reservedFieldsFail : Obligations.ReservedFieldsFail := by
  intro w s op rd rs1 rs2 bad hop
  have hbad : (cmdFields w).Bad ↔ bad := by
    simp only [CmdFields.Bad, CmdFields.RowBad, cmdFields_high_toNat, cmdFields_opc_toNat,
      cmdFields_m_toNat, cmdFields_res1_toNat, cmdFields_rd_toNat, cmdFields_rs1_toNat,
      cmdFields_rs2_toNat, cmdFields_res0_toNat, bad, op, rd, rs1, rs2]
  obtain ⟨hrejected, hok⟩ := decode_of_defined (w := w) (by rw [cmdFields_opc_toNat]; exact hop)
  rw [hbad] at hrejected hok
  exact ⟨fun hb => completeWord_rejected (hrejected hb) s, hok⟩

/-! ### The code of the first failed check (30_encoding.md R100, 60_exceptions.md R282) -/

/-- The checks of a command as the spec lists them (Safety.lean). -/
def specChecks (i : Instr) (s : State) : Checks :=
  ⟨wellFormed i, wideReads i s, (usedSet i).map s.modSet, reducedReads i s⟩

/-- `Validate` depends on WIDE only as a set, and on REDUCED only where there is a modulus. -/
theorem validate_congr {w : Width} {c d : Checks} (hf : c.fields = d.fields)
    (hw : ∀ r, r ∈ c.wide ↔ r ∈ d.wide) (hm : c.modset = d.modset)
    (hr : d.modset.isSome = true → c.reduced = d.reduced) : validate w c = validate w d := by
  have hsize : sizeOk w c.wide = sizeOk w d.wide := by
    rw [Bool.eq_iff_iff, sizeOk_iff, sizeOk_iff]
    simp only [hw]
  unfold validate
  rw [hf, hsize, hm]
  cases hd : d.modset with
  | none => rfl
  | some ms => rw [hr (by rw [hd]; rfl)]

/-- Every command completes with the code that `Validate` gives for the spec's lists. -/
theorem exec_err (i : Instr) (s : State) :
    ∃ t, exec i s = .next t ∧ t.status.err = validate s.runWidth (specChecks i s) := by
  obtain ⟨c, effect, he, hf, hw, hm, hr, -⟩ := exec_eq_runCommand i s
  have hc : validate s.runWidth c = validate s.runWidth (specChecks i s) :=
    validate_congr hf hw hm (fun h => hr (by simpa [specChecks] using h))
  rw [he, ← hc]
  rcases runCommand_cases c effect s with ⟨hv, h⟩ | ⟨-, h⟩
  · exact ⟨_, h, by rw [State.complete_err, hv]⟩
  · exact ⟨_, h, State.complete_err _ _⟩

/-- `Validate` of the spec's lists, as the checks that hold in their order. -/
theorem validate_specChecks (i : Instr) (s : State) [Decidable (SizeHolds i s)]
    [Decidable (ModulusHolds i s)] [Decidable (ReducedHolds i s)] :
    validate s.runWidth (specChecks i s) =
      if wellFormed i = false then .reservedField
      else if ¬ SizeHolds i s then .size
      else if ¬ ModulusHolds i s then .badModulus
      else if ¬ ReducedHolds i s then .unreduced
      else .none := by
  simp only [sizeHolds_iff, modulusHolds_iff, reducedHolds_iff, validate, specChecks]
  cases h : usedSet i <;> simp

/-- Settles O14: the code is `Validate`'s for the spec's lists, which tests the checks in order. -/
theorem errorCodeIsTheFirstFailedCheck : Obligations.ErrorCodeIsTheFirstFailedCheck := by
  intro i s
  classical
  obtain ⟨t, ht, herr⟩ := exec_err i s
  rw [validate_specChecks] at herr
  refine ⟨t, ht, fun hwf => ?_, fun hwf hs => ?_, fun hwf hs hm => ?_, fun hwf hs hm hr => ?_, ?_⟩
  · rw [herr, if_pos hwf]
  · rw [herr, if_neg (by simp [hwf]), if_pos hs]
  · rw [herr, if_neg (by simp [hwf]), if_neg (not_not_intro hs), if_pos hm]
  · rw [herr, if_neg (by simp [hwf]), if_neg (not_not_intro hs), if_neg (not_not_intro hm), if_pos hr]
  · rintro ⟨hwf, hs, hm, hr⟩
    rw [herr, if_neg (by simp [hwf]), if_neg (not_not_intro hs), if_neg (not_not_intro hm),
      if_neg (not_not_intro hr)]

/-! ### One coordinate of a point read and written (43_point.md R210, R211) -/

/-- Settles O34: the selector names the coordinate that the completion writes to `vd`. -/
theorem pgetCopiesOneCoordinate : Obligations.PgetCopiesOneCoordinate := by
  intro vd pts c s h
  have hread : ((s.writeV vd ((s.readPt pts).coord c)).complete .none).readV vd =
      (s.readPt pts).coord c := by simp
  refine ⟨_, exec_pget_ok h, State.complete_err _ _, ?_, ?_, ?_⟩ <;> rintro rfl <;> exact hread

/-- Settles O35: the selector names the one coordinate that is replaced in the point written. -/
theorem pputWritesOneCoordinate : Obligations.PputWritesOneCoordinate := by
  intro ptd vs c s h
  have hread : ((s.writePt ptd ((s.readPt ptd).withCoord c (s.readV vs))).complete .none).readPt ptd =
      (s.readPt ptd).withCoord c (s.readV vs) := by simp
  refine ⟨_, exec_pput_ok h, State.complete_err _ _, ?_, ?_, ?_⟩ <;> rintro rfl <;> exact hread

end Sys2Proof.Machine

namespace Sys2Proof.Machine

/-! ### The support family (40_support.md) -/

/-- The borrow of `Sub_W` is the unsigned order (41_modular.md R160). -/
theorem subW_borrow_eq_one_iff (W x y : Nat) : (subW W x y).1 = 1 ↔ x < y := by
  simp [subW]

theorem subW_borrow_eq_zero_iff (W x y : Nat) : (subW W x y).1 = 0 ↔ y ≤ x := by
  simp [subW]

/-- Without a borrow the difference of `Sub_W` does not wrap (41_modular.md R160). -/
theorem subW_difference_of_le {W x y : Nat} (hx : x < 2 ^ W) (hyx : y ≤ x) :
    (subW W x y).2 = x - y := by
  calc (subW W x y).2 = (x - y + 2 ^ W) % 2 ^ W := by simp only [subW, Nat.sub_add_comm hyx]
    _ = (x - y) % 2 ^ W := Nat.add_mod_right _ _
    _ = x - y := Nat.mod_eq_of_lt (by omega)

/-- `Sub_W` gives neither a borrow nor a difference exactly on equal values (40_support.md R125). -/
theorem subW_eq_zero_iff {W x y : Nat} (hx : x < 2 ^ W) :
    (subW W x y).1 = 0 ∧ (subW W x y).2 = 0 ↔ x = y := by
  rw [subW_borrow_eq_zero_iff]
  constructor
  · rintro ⟨hyx, hdiff⟩
    rw [subW_difference_of_le hx hyx] at hdiff
    omega
  · rintro rfl
    exact ⟨le_rfl, by rw [subW_difference_of_le hx le_rfl, Nat.sub_self]⟩

/-- LT after a comparison is the unsigned order of the values (40_support.md R124). -/
theorem State.setCompareFlags_lt_iff (s : State) (x y : Nat) :
    (s.setCompareFlags x y).status.lt = true ↔ x < y := by
  rw [← subW_borrow_eq_one_iff s.runBits]
  exact decide_eq_true_iff

/-- EQ after a comparison of values that fit the width is their equality (40_support.md R124). -/
theorem State.setCompareFlags_eq_iff {s : State} {x y : Nat} (hx : x < 2 ^ s.runBits) :
    (s.setCompareFlags x y).status.eq = true ↔ x = y := by
  rw [← subW_eq_zero_iff hx]
  exact decide_eq_true_iff

/-- Settles O20: the borrow and the difference of `Sub_W` decide the order of values that fit, and the
first operand fits by the SIZE check. -/
theorem icmpComparesUnsigned : Obligations.IcmpComparesUnsigned := by
  intro vs1 vs2 s h
  have hx : (s.readV vs1).toNat < 2 ^ s.runBits :=
    h.wide_lt (readV_mem_wideReads (by simp [sourceVs]) s)
  refine ⟨_, exec_icmp_ok h, State.complete_err _ _, ?_, ?_, ?_⟩
  · rw [State.complete_lt, State.setCompareFlags_lt_iff]
  · rw [State.complete_eq, State.setCompareFlags_eq_iff hx, BitVec.toNat_inj]
  · rw [State.complete_res, State.setCompareFlags_res]

/-- NOP reads no register and uses no modulus set, so no check of it fails (40_support.md R121). -/
theorem canExecute_nop (s : State) : CanExecute .nop s :=
  ⟨rfl, fun _ _ hr => (nomatch hr), fun _ hm => (nomatch hm), fun _ hm => (nomatch hm)⟩

/-- Settles O18: NOP always executes, and its effect is none. -/
theorem nopOnlyCompletes : Obligations.NopOnlyCompletes := fun s => exec_nop_ok (canExecute_nop s)

/-- Settles O19: the register written is read back, also where it is the source. -/
theorem movCopiesTheRegister : Obligations.MovCopiesTheRegister := by
  intro vd vs s h
  refine ⟨_, exec_mov_ok h, State.complete_err _ _, ?_⟩
  rw [State.complete_readV, State.readV_writeV, if_pos rfl]

end Sys2Proof.Machine

namespace Sys2Proof.Machine

/-! ### The multiply-reduce algorithm gives the Montgomery product (41_modular.md R141, R144, R145) -/

/-- The radix is coprime to an odd `m` (00_scope.md R10). -/
theorem gcd_radix_eq_one {m : Nat} (hm : m % 2 = 1) (W : Nat) : Nat.gcd m (2 ^ W) = 1 :=
  (Nat.coprime_two_right.mpr (Nat.odd_iff.mpr hm)).pow_right W

/-- A canonical residue is fixed by its multiple by the radix. -/
theorem eq_mod_of_mul_radix {m W r a : Nat} (hm : m % 2 = 1) (hr : r < m)
    (h : r * 2 ^ W ≡ a * 2 ^ W [MOD m]) : r = a % m := by
  have hra : r ≡ a [MOD m] := h.cancel_right_of_coprime (gcd_radix_eq_one hm W)
  exact (Nat.mod_eq_of_lt hr).symm.trans hra

/-- `MM_m(x, y)` is the only canonical residue `r` with `r · 2^W ≡ x · y` (41_modular.md R141). -/
theorem eq_montMul_of_mul_radix {m W r x y : Nat} (hm : m % 2 = 1) (hr : r < m)
    (h : r * 2 ^ W ≡ x * y [MOD m]) : r = montMul W m x y := by
  rw [eq_mod_of_mul_radix hm hr (h.trans (montMul_mul_pow hm W x y).symm),
    Nat.mod_eq_of_lt (montMul_lt (Nat.zero_lt_of_lt hr) W x y)]

/-- The condition on `n0`, as a divisibility (41_modular.md R142). -/
theorem SetIsValid.dvd_n0_mul_add_one {ms : ModSet} (h : SetIsValid ms) :
    2 ^ 64 ∣ ms.n0.toNat * ms.m.toNat + 1 := by
  obtain ⟨-, -, hn0⟩ := h
  rw [Nat.mul_mod_mod] at hn0
  omega

/-- The quotient digit of a round clears the low limb: `n0 · m ≡ −1`, so `a + a · n0 · m ≡ 0`. -/
theorem dvd_add_digit_mul {m n0 : Nat} (hn0 : 2 ^ 64 ∣ n0 * m + 1) (a : Nat) :
    2 ^ 64 ∣ a + a % 2 ^ 64 * n0 % 2 ^ 64 * m := by
  rw [← Nat.modEq_zero_iff_dvd] at hn0 ⊢
  have hdigit : a % 2 ^ 64 * n0 % 2 ^ 64 ≡ a * n0 [MOD 2 ^ 64] :=
    (Nat.mod_modEq _ _).trans ((Nat.mod_modEq _ _).mul_right _)
  calc a + a % 2 ^ 64 * n0 % 2 ^ 64 * m ≡ a + a * n0 * m [MOD 2 ^ 64] :=
        (hdigit.mul_right m).add_left a
    _ = a * (n0 * m + 1) := by ring
    _ ≡ a * 0 [MOD 2 ^ 64] := hn0.mul_left a
    _ = 0 := mul_zero a

/-- Limb `i` of a multiple of `2^(64·i)` is the low limb of the quotient (00_scope.md R9). -/
theorem natLimb_radix_mul (a i : Nat) : natLimb (2 ^ (64 * i) * a) i = a % 2 ^ 64 := by
  rw [natLimb, Nat.mul_div_cancel_left _ (Nat.two_pow_pos _)]

/-- A round clears one limb more (41_modular.md R144). -/
theorem dvd_montRound {m n0 t i : Nat} (hn0 : 2 ^ 64 ∣ n0 * m + 1) (ht : 2 ^ (64 * i) ∣ t) :
    2 ^ (64 * (i + 1)) ∣ montRound m n0 t i := by
  obtain ⟨a, rfl⟩ := ht
  have hround : montRound m n0 (2 ^ (64 * i) * a) i =
      2 ^ (64 * i) * (a + a % 2 ^ 64 * n0 % 2 ^ 64 * m) := by
    rw [montRound, natLimb_radix_mul]
    ring
  rw [hround, mul_add_one, pow_add]
  exact Nat.mul_dvd_mul_left _ (dvd_add_digit_mul hn0 a)

/-- After `k` rounds the low `k` limbs are zero (41_modular.md R144). -/
theorem dvd_montRounds {m n0 : Nat} (hn0 : 2 ^ 64 ∣ n0 * m + 1) (k t : Nat) :
    2 ^ (64 * k) ∣ montRounds m n0 k t := by
  induction k with
  | zero => exact one_dvd _
  | succ k ih => exact dvd_montRound hn0 ih

/-- The rounds add multiples of the modulus only (41_modular.md R144). -/
theorem montRounds_modEq (m n0 k t : Nat) : montRounds m n0 k t ≡ t [MOD m] := by
  induction k with
  | zero => rfl
  | succ k ih =>
    rw [montRounds, montRound, mul_right_comm]
    exact (Nat.add_mul_modulus_modEq_iff.mpr rfl).trans ih

/-- The rounds add less than `2^(64·k)` times the modulus: each digit is at most `2^64 − 1`. -/
theorem montRounds_add_le (m n0 k t : Nat) :
    montRounds m n0 k t + m ≤ t + 2 ^ (64 * k) * m := by
  induction k with
  | zero => simp [montRounds]
  | succ k ih =>
    have hdigit : natLimb (montRounds m n0 k t) k * n0 % 2 ^ 64 + 1 ≤ 2 ^ 64 :=
      Nat.mod_lt _ (by decide)
    rw [montRounds, montRound]
    generalize natLimb (montRounds m n0 k t) k * n0 % 2 ^ 64 = q at hdigit ⊢
    calc montRounds m n0 k t + q * m * 2 ^ (64 * k) + m
        = montRounds m n0 k t + m + q * (2 ^ (64 * k) * m) := by ring
      _ ≤ t + 2 ^ (64 * k) * m + q * (2 ^ (64 * k) * m) := Nat.add_le_add_right ih _
      _ = t + (q + 1) * (2 ^ (64 * k) * m) := by ring
      _ ≤ t + 2 ^ 64 * (2 ^ (64 * k) * m) :=
        Nat.add_le_add_left (Nat.mul_le_mul_right _ hdigit) t
      _ = t + 2 ^ (64 * (k + 1)) * m := by ring

/-- The final subtraction of R144 on a value below `2·m` is the reduction modulo `m`. -/
theorem sub_if_le_eq_mod {m u : Nat} (h : u < 2 * m) : (if m ≤ u then u - m else u) = u % m := by
  split_ifs with hle
  · rw [Nat.mod_eq_sub_mod hle, Nat.mod_eq_of_lt (by omega)]
  · rw [Nat.mod_eq_of_lt (by omega)]

/-- The rounds divided by the radix are below `2·m` in the range of R145. -/
theorem montRounds_div_lt {m n0 k t : Nat} (hm : 0 < m) (ht : t < 2 ^ (64 * k) * m) :
    montRounds m n0 k t / 2 ^ (64 * k) < 2 * m := by
  apply Nat.div_lt_of_lt_mul
  have hle := montRounds_add_le m n0 k t
  rw [mul_left_comm]
  omega

/-- The algorithm of R144 gives the Montgomery product in the range of R145, for every `S`. -/
theorem montMulAlg_eq_montMul {x y m n0 S : Nat} (hm : m % 2 = 1) (hn0 : 2 ^ 64 ∣ n0 * m + 1)
    (hxy : x * y < 2 ^ (64 * S) * m) :
    montMulAlg x y m n0 S = montMul (64 * S) m x y := by
  have hpos : 0 < m := by omega
  rw [montMulAlg, sub_if_le_eq_mod (montRounds_div_lt hpos hxy)]
  apply eq_montMul_of_mul_radix hm (Nat.mod_lt _ hpos)
  calc montRounds m n0 S (x * y) / 2 ^ (64 * S) % m * 2 ^ (64 * S)
      ≡ montRounds m n0 S (x * y) / 2 ^ (64 * S) * 2 ^ (64 * S) [MOD m] :=
        (Nat.mod_modEq _ _).mul_right _
    _ = montRounds m n0 S (x * y) := Nat.div_mul_cancel (dvd_montRounds hn0 S _)
    _ ≡ x * y [MOD m] := montRounds_modEq m n0 S _

/-- The operand width is 64 bits a limb (00_scope.md R7). -/
theorem bits_eq_limbs (w : Width) : w.bits = 64 * w.limbs := by
  cases w <;> rfl

/-- Settles O29: the rounds clear the low limbs without changing the residue, and their sum stays
below twice the modulus. -/
theorem reductionAlgorithmGivesTheProduct : Obligations.ReductionAlgorithmGivesTheProduct := by
  intro w ms x y hset hxy
  have hn0 := SetIsValid.dvd_n0_mul_add_one hset
  obtain ⟨hodd, -⟩ := hset
  rw [bits_eq_limbs] at hxy ⊢
  exact montMulAlg_eq_montMul hodd hn0 hxy

/-! ### What the modular commands leave (41_modular.md R146 to R170) -/

/-- The modulus of a command that executes is odd (41_modular.md R142). -/
theorem CanExecute.modulus_odd {i : Instr} {s : State} {m : ModSel} (h : CanExecute i s)
    (hm : usedSet i = some m) : (s.modSet m).m.toNat % 2 = 1 := by
  obtain ⟨-, -, hset, -⟩ := h
  obtain ⟨hodd, -⟩ := hset m hm
  exact hodd

/-- A V register holds the result that a completion wrote to it, where the result is below a wide
register's value (00_scope.md R11). -/
theorem toNat_readV_result (s : State) (d : VField) {n : Nat} {r : Wide} (h : n < r.toNat) :
    (((s.writeV d (zextWide n)).complete .none).readV d).toNat = n := by
  rw [State.complete_readV, State.readV_writeV, if_pos rfl, toNat_zextWide_of_lt_wide h]

/-- A command that executes and writes a Montgomery product leaves its canonical residue
(41_modular.md R141). -/
theorem CanExecute.leaves_montMul {i : Instr} {s : State} {m : ModSel} {d : VField} {x y : Nat}
    (h : CanExecute i s) (hm : usedSet i = some m)
    (he : exec i s = .next ((s.writeV d (zextWide
      (montMul s.runBits (s.modSet m).m.toNat x y))).complete .none)) :
    ∃ t, exec i s = .next t ∧ t.status.err = .none ∧ (t.readV d).toNat < (s.modSet m).m.toNat ∧
      (t.readV d).toNat * 2 ^ s.runBits ≡ x * y [MOD (s.modSet m).m.toNat] := by
  have hlt := montMul_lt (h.modulus_pos hm) s.runBits x y
  refine ⟨_, he, State.complete_err _ _, ?_⟩
  rw [toNat_readV_result s d hlt]
  exact ⟨hlt, montMul_mul_pow (h.modulus_odd hm) _ _ _⟩

/-- Settles O21: the register holds the Montgomery product of the operands. -/
theorem mmulIsTheMontgomeryProduct : Obligations.MmulIsTheMontgomeryProduct :=
  fun _ _ _ _ _ h => h.leaves_montMul rfl (exec_mmul_ok h)

/-- Settles O22: the operands are reduced, so one conditional subtraction is the remainder. -/
theorem maddIsTheModularSum : Obligations.MaddIsTheModularSum := by
  intro m vd vs1 vs2 s h
  have hle := h.modulus_le rfl
  have hx := h.reduced_lt rfl (r := s.readV vs1) (by simp [reducedReads])
  have hy := h.reduced_lt rfl (r := s.readV vs2) (by simp [reducedReads])
  refine ⟨_, exec_madd_ok h, rfl, ?_⟩
  rw [toNat_readV_result s vd (modAdd_lt hle hx hy), modAdd_eq hle hx hy]

/-- Settles O24: the shift keeps the bit shifted out, so one conditional subtraction is the remainder. -/
theorem mdblIsTheModularDouble : Obligations.MdblIsTheModularDouble := by
  intro m vd vs s h
  have hle := h.modulus_le rfl
  have hx := h.reduced_lt rfl (r := s.readV vs) (by simp [reducedReads])
  refine ⟨_, exec_mdbl_ok h, rfl, ?_⟩
  rw [toNat_readV_result s vd (modDbl_lt s.runBits_pos hle hx), modDbl_eq s.runBits_pos hle hx]

/-- Two completion steps are one where their checks give one code and, when it is 0, their effects
one state. -/
theorem runCommand_congr {c c' : Checks} {effect effect' : State → State} {s : State}
    (hc : validate s.runWidth c = validate s.runWidth c')
    (he : validate s.runWidth c = .none → effect s = effect' s) :
    runCommand c effect s = runCommand c' effect' s := by
  rcases runCommand_cases c effect s with ⟨hv, h⟩ | ⟨hv, h⟩
  · rw [h, runCommand_ok (hc ▸ hv), he hv]
  · rw [h, runCommand_error (hc ▸ hv), hc]

/-- `Validate` depends on REDUCED only as a set (41_modular.md R143). -/
theorem validate_congr_reduced (w : Width) (c : Checks) {l : List Wide}
    (h : ∀ x, x ∈ c.reduced ↔ x ∈ l) : validate w c = validate w { c with reduced := l } := by
  have hred (m : Wide) : allReduced m c.reduced = allReduced m l := by
    rw [Bool.eq_iff_iff, allReduced_iff, allReduced_iff]
    simp only [h]
  simp only [validate, hred]

/-- Listing the operand twice, as MADD of a register with itself does, checks nothing more. -/
theorem validate_modularChecks_pair (w : Width) (ms : ModSet) (x : Wide) :
    validate w (modularChecks ms [x] [x]) = validate w (modularChecks ms [x, x] [x, x]) :=
  (validate_congr_reduced w _ (l := [x, x]) (by simp [modularChecks])).trans
    (validate_congr rfl (by simp [modularChecks]) rfl (fun _ => rfl))

/-- Settles O25: the two commands' checks give one code, and where they execute the operand fits the
width, so that the shift and the sum agree. -/
theorem mdblAgreesWithMadd : Obligations.MdblAgreesWithMadd := by
  intro m vd vs s
  simp only [exec, execMdbl, execMadd]
  refine runCommand_congr (validate_modularChecks_pair _ _ _) fun hv => ?_
  have h : CanExecute (.mdbl m vd vs) s := (validate_eq_none_iff_canExecute rfl
    (by simp [modularChecks, wideReads, sourceVs, sourcePts, usedSet, sourceConsts]) rfl
    (fun _ => rfl)).mp hv
  have hx := h.wide_lt (readV_mem_wideReads (List.mem_singleton_self vs) s)
  simp only [modDbl_eq_modAdd s.runBits_pos hx]

/-- With the right `r2` a Montgomery product with it is `x · 2^W mod m` (41_modular.md R150). -/
theorem eq_mul_radix_of_r2 {m W r x r2 : Nat} (hm : m % 2 = 1) (hr : r < m)
    (h : r * 2 ^ W ≡ x * r2 [MOD m]) (hr2 : r2 = 2 ^ (2 * W) % m) : r = x * 2 ^ W % m := by
  apply eq_mod_of_mul_radix hm hr
  calc r * 2 ^ W ≡ x * r2 [MOD m] := h
    _ ≡ x * 2 ^ (2 * W) [MOD m] := by rw [hr2]; exact (Nat.mod_modEq _ _).mul_left x
    _ = x * 2 ^ W * 2 ^ W := by ring

/-- Settles O26: the register holds the Montgomery product of the operand and `r2`. -/
theorem tomontEntersMontgomeryForm : Obligations.TomontEntersMontgomeryForm := by
  intro m vd vs s h
  obtain ⟨t, he, herr, hlt, hmod⟩ := h.leaves_montMul rfl (exec_tomont_ok h)
  exact ⟨t, he, herr, hlt, hmod, eq_mul_radix_of_r2 (h.modulus_odd rfl) hlt hmod⟩

/-- Settles O27: the register holds the Montgomery product of the operand and 1. -/
theorem frommontLeavesMontgomeryForm : Obligations.FrommontLeavesMontgomeryForm := by
  intro m vd vs s h
  simpa only [mul_one] using h.leaves_montMul rfl (exec_frommont_ok h)

/-! ### TOMONT and then FROMMONT (41_modular.md R153) -/

/-- A command leaves both modulus sets (10_state.md R27). -/
theorem modSet_of_exec {i : Instr} {s t : State} (h : exec i s = .next t) (m : ModSel) :
    t.modSet m = s.modSet m := by
  obtain ⟨-, -, hconsts, hn0p, hn0q, -⟩ := commandsWriteOnlyTheirDestination i s t h
  cases m <;> simp only [State.modSet, hconsts, hn0p, hn0q]

/-- Acceptance leaves both modulus sets (10_state.md R42). -/
@[simp] theorem State.modSet_accept (s : State) (w : Limb) (m : ModSel) :
    (s.accept w).modSet m = s.modSet m := by
  cases m <;> rfl

/-- FROMMONT of a residue can execute where another command on its modulus set could, at the same
width. -/
theorem canExecute_frommont_of_lt {i : Instr} {s t : State} {m : ModSel} {vd vs : VField}
    (h : CanExecute i s) (hm : usedSet i = some m) (hset : t.modSet m = s.modSet m)
    (hwidth : t.runWidth = s.runWidth) (hlt : (t.readV vs).toNat < (s.modSet m).m.toNat) :
    CanExecute (.frommont m vd vs) t := by
  refine ⟨rfl, fun hw => ?_, ?_, ?_⟩
  · have hfit := h.read_fits (hwidth.symm.trans hw) (modulus_mem_wideReads hm s)
    simpa [wideReads, sourceVs, sourcePts, usedSet, sourceConsts, hset] using
      ⟨hlt.trans hfit, hfit⟩
  · obtain ⟨-, -, hvalid, -⟩ := h
    rintro m' hm'
    obtain rfl := Option.some.inj hm'
    exact hset ▸ hvalid m hm
  · simp [ReducedHolds, reducedReads]

/-- Settles O28: the residue that TOMONT leaves passes FROMMONT's checks, and the two radices cancel. -/
theorem frommontUndoesTomont : Obligations.FrommontUndoesTomont := by
  intro m vd vs ve s t h hsize hr2 ht
  obtain ⟨t', ht', -, hlt, -, hvalue⟩ := tomontEntersMontgomeryForm m vd vs s h
  obtain rfl : t' = t := Host.Outcome.next.inj (ht'.symm.trans ht)
  obtain ⟨-, -, -, -, -, hctrl, -⟩ := commandsWriteOnlyTheirDestination _ _ _ ht
  have hset (w : Limb) : (t'.accept w).modSet m = s.modSet m :=
    (t'.modSet_accept w m).trans (modSet_of_exec ht m)
  have hwidth (w : Limb) : (t'.accept w).runWidth = s.runWidth := by
    rw [State.accept_runWidth, hctrl, hsize]
  obtain ⟨u, hu, herr, hlt', hmod⟩ := frommontLeavesMontgomeryForm m ve vd _
    (canExecute_frommont_of_lt h rfl (hset (cmdValue (.frommont m ve vd))) (hwidth _) hlt)
  rw [hset] at hlt' hmod
  rw [State.runBits, hwidth] at hmod
  refine ⟨u, hu, herr, eq_mod_of_mul_radix (h.modulus_odd rfl) hlt' (hmod.trans ?_)⟩
  have hread : ((t'.accept (cmdValue (.frommont m ve vd))).readV vd).toNat =
      (s.readV vs).toNat * 2 ^ s.runBits % (s.modSet m).m.toNat := hvalue hr2
  rw [hread]
  exact Nat.mod_modEq _ _

/-! ### Who reads `CONST.R2P` and `CONST.R2Q` (42_modexp.md R181, 41_modular.md R150) -/

/-- The state with other values in `CONST.R2P` and `CONST.R2Q`. -/
def State.withR2 (s : State) (r r' : Wide) : State :=
  { s with consts := { s.consts with r2p := r, r2q := r' } }

/-- A completion step whose code and effect do not depend on the two registers. -/
theorem runCommand_withR2 {c c' : Checks} {effect effect' : State → State} {s t : State}
    {r r' : Wide} (h : runCommand c effect s = .next t)
    (hc : validate s.runWidth c' = validate s.runWidth c)
    (he : effect' (s.withR2 r r') = (effect s).withR2 r r') :
    runCommand c' effect' (s.withR2 r r') = .next (t.withR2 r r') := by
  have hc' : validate (s.withR2 r r').runWidth c' = validate s.runWidth c := hc
  rcases runCommand_cases c effect s with ⟨hv, hx⟩ | ⟨hv, hx⟩ <;>
    obtain rfl := Host.Outcome.next.inj (hx.symm.trans h)
  · rw [runCommand_ok (hc'.trans hv), he]
    rfl
  · rw [runCommand_error (hc' ▸ hv), hc']
    rfl

/-- Settles O49: the lists and the effect of every command but TOMONT read a modulus set through its
modulus and `n0` only, so once the set is named the two runs' checks and effects are the same terms. -/
theorem onlyTomontReadsR2 : Obligations.OnlyTomontReadsR2 := by
  intro i s t r r' hi h
  change exec i (s.withR2 r r') = .next (t.withR2 r r')
  cases i <;>
    simp only [exec, execNop, execMov, execIcmp, execMmul, execMadd, execMsub, execMdbl,
      execFrommont, execMexp, execMinv, execPinf, execPmov, execPget, execPput, execPisinf, execPonc,
      execPdbl, execPadd, execPaff, execPmul] at h ⊢
  case tomont m vd vs => exact absurd rfl (hi m vd vs)
  case mmul m _ _ _ | madd m _ _ _ | msub m _ _ _ | mdbl m _ _ | frommont m _ _ | mexp m _ _ _
      | minv m _ _ =>
    cases m <;> exact runCommand_withR2 h rfl rfl
  all_goals exact runCommand_withR2 h rfl rfl

end Sys2Proof.Machine

namespace Sys2Proof.Machine

/-! ### The residue that a value stands for (00_scope.md R13, 41_modular.md R147) -/

/-- `ψ_m(n)` of a value that no register holds yet: `montValue` reads it off a register
(00_scope.md R13). -/
def montResidue (W m n : Nat) : ZMod m := (n : ZMod m) * ((2 : ZMod m) ^ W)⁻¹

theorem montValue_eq_montResidue (W m : Nat) (x : Wide) :
    montValue W m x = montResidue W m x.toNat := rfl

/-- The Montgomery product stands for the product of the residues (41_modular.md R147). -/
theorem montResidue_montMul {m : Nat} (hm : m % 2 = 1) (W x y : Nat) :
    montResidue W m (montMul W m x y) = montResidue W m x * montResidue W m y := by
  simp only [montResidue, montMul_cast hm]
  ring

/-- `ONE_m` stands for 1 (42_modexp.md R181). -/
theorem montResidue_oneMont {m : Nat} (hm : m % 2 = 1) (W : Nat) :
    montResidue W m (oneMont W m) = 1 := by
  simp [montResidue, oneMont, radix_mul_inv hm]

/-- Among the registers that hold canonical residues only 0 stands for 0. -/
theorem montValue_eq_zero_iff {m : Nat} (hm : m % 2 = 1) (W : Nat) {r : Wide} (hr : r.toNat < m) :
    montValue W m r = 0 ↔ r = 0 := by
  have hu : IsUnit ((2 : ZMod m) ^ W)⁻¹ := IsUnit.of_mul_eq_one_right _ (radix_mul_inv hm W)
  rw [montValue, hu.mul_left_eq_zero, ZMod.natCast_eq_zero_iff, ← BitVec.toNat_inj,
    BitVec.ofNat_eq_ofNat, BitVec.toNat_zero]
  exact ⟨fun h => Nat.eq_zero_of_dvd_of_lt h hr, fun h => h ▸ dvd_zero m⟩

/-! ### The exponentiation is the power of the residue (42_modexp.md R184, R187) -/

/-- One iteration squares, and multiplies where the exponent bit is set (42_modexp.md R183). -/
theorem montResidue_expStep {m : Nat} (hm : m % 2 = 1) (W x acc : Nat) (b : Bool) :
    montResidue W m (if b then montMul W m (montMul W m acc acc) x else montMul W m acc acc) =
      montResidue W m acc ^ 2 * montResidue W m x ^ b.toNat := by
  cases b <;> simp [montResidue_montMul hm, sq]

/-- The iterations for the low `i` bits raise the accumulator to `2^i` and multiply by the power
that these bits of the exponent give (42_modexp.md R184). -/
theorem montResidue_expLoop {m : Nat} (hm : m % 2 = 1) (W x k i acc : Nat) :
    montResidue W m (expLoop W m x k i acc) =
      montResidue W m acc ^ 2 ^ i * montResidue W m x ^ (k % 2 ^ i) := by
  induction i generalizing acc with
  | zero => simp [expLoop, Nat.mod_one]
  | succ i ih =>
    rw [expLoop, ih, montResidue_expStep hm, Nat.mod_pow_succ, ← Nat.toNat_testBit]
    ring

/-- Every exponent of the operand width is read whole by the `W` iterations (42_modexp.md R184). -/
theorem montResidue_montExp {m W k : Nat} (hm : m % 2 = 1) (hk : k < 2 ^ W) (x : Nat) :
    montResidue W m (montExp W m x k) = montResidue W m x ^ k := by
  rw [montExp, montResidue_expLoop hm, montResidue_oneMont hm, one_pow, one_mul,
    Nat.mod_eq_of_lt hk]

/-- A command that executes and writes an exponentiation leaves the reduced value that stands for the
power (42_modexp.md R184). -/
theorem CanExecute.leaves_montExp {i : Instr} {s : State} {m : ModSel} {d : VField} {x k : Nat}
    (h : CanExecute i s) (hm : usedSet i = some m) (hk : k < 2 ^ s.runBits)
    (he : exec i s = .next ((s.writeV d (zextWide
      (montExp s.runBits (s.modSet m).m.toNat x k))).complete .none)) :
    ∃ t, exec i s = .next t ∧ t.status.err = .none ∧ (t.readV d).toNat < (s.modSet m).m.toNat ∧
      montValue s.runBits (s.modSet m).m.toNat (t.readV d) =
        montResidue s.runBits (s.modSet m).m.toNat x ^ k := by
  have hlt := montExp_lt (h.modulus_pos hm) s.runBits x k
  refine ⟨_, he, State.complete_err _ _, ?_⟩
  rw [montValue_eq_montResidue, toNat_readV_result s d hlt]
  exact ⟨hlt, montResidue_montExp (h.modulus_odd hm) hk x⟩

/-- Settles O30: SIZE keeps the exponent below the radix, so the loop reads all of it. -/
theorem mexpIsTheModularPower : Obligations.MexpIsTheModularPower := by
  intro m vd vbase vexp s h
  have hk : (s.readV vexp).toNat < 2 ^ s.runBits :=
    h.wide_lt (readV_mem_wideReads (by simp [sourceVs]) s)
  exact h.leaves_montExp rfl hk (exec_mexp_ok h)

/-- Fermat's inverse: over a prime modulus the power `p − 2` of a nonzero residue inverts it
(42_modexp.md R187). -/
theorem mul_pow_sub_two_eq_one {p : Nat} (hp : p.Prime) {a : ZMod p} (ha : a ≠ 0) :
    a * a ^ (p - 2) = 1 := by
  have : Fact p.Prime := ⟨hp⟩
  have hexp : p - 2 + 1 = p - 1 := by have := hp.two_le; omega
  rw [← pow_succ', hexp, ZMod.pow_card_sub_one_eq_one ha]

/-- Settles O31: MINV is the exponentiation by `m − 2`; only 0 stands for 0, and over a prime modulus
Fermat's theorem makes the power the inverse. -/
theorem minvIsTheFermatInverse : Obligations.MinvIsTheFermatInverse := by
  intro m vd vs s h
  have h3 := h.three_le_modulus rfl
  have hodd := h.modulus_odd rfl
  have hx := h.reduced_lt rfl (r := s.readV vs) (by simp [reducedReads])
  have hk : (s.modSet m).m.toNat - 2 < 2 ^ s.runBits :=
    (Nat.sub_le _ _).trans_lt (h.wide_lt (modulus_mem_wideReads rfl s))
  obtain ⟨t, he, herr, hlt, hpow⟩ := h.leaves_montExp rfl hk (exec_minv_ok h)
  rw [← montValue_eq_montResidue] at hpow
  refine ⟨t, he, herr, hlt, hpow, fun h0 => ?_, fun hprime h0 => ?_⟩
  · rw [← montValue_eq_zero_iff hodd _ hlt, hpow, (montValue_eq_zero_iff hodd _ hx).mpr h0,
      zero_pow (by omega)]
  · rw [hpow]
    exact mul_pow_sub_two_eq_one hprime (mt (montValue_eq_zero_iff hodd _ hx).mp h0)

end Sys2Proof.Machine

namespace Sys2Proof.Machine

/-! ### The field operations on residues (43_point.md R201, R203) -/

/-- A usable field with an odd modulus, so that every value stands for a residue (00_scope.md R13). -/
structure Field.Odd (F : Field) : Prop extends F.Usable where
  odd : F.p % 2 = 1

/-- `ψ_p(n)` of a value of the field (43_point.md R203). -/
def Field.residue (F : Field) (n : Nat) : ZMod F.p := montResidue F.bits F.p n

/-- `n` is the reduced value that stands for the residue `r` (00_scope.md R13). -/
structure Field.Rep (F : Field) (n : Nat) (r : ZMod F.p) : Prop where
  lt : n < F.p
  eq : F.residue n = r

namespace Field.Odd
variable {F : Field} {u v : Nat} {r q : ZMod F.p}

theorem residue_mul (hF : F.Odd) (u v : Nat) :
    F.residue (F.mul u v) = F.residue u * F.residue v :=
  montResidue_montMul hF.odd _ _ _

/-- The first factor may be any value: PDBL's product with `CONST.A`, PONC's with `CONST.B`. -/
theorem rep_mul_left (hF : F.Odd) (u : Nat) (hv : F.Rep v q) :
    F.Rep (F.mul u v) (F.residue u * q) :=
  ⟨hF.mul_lt u v, by rw [hF.residue_mul, hv.eq]⟩

theorem rep_mul (hF : F.Odd) (hu : F.Rep u r) (hv : F.Rep v q) : F.Rep (F.mul u v) (r * q) :=
  hu.eq ▸ hF.rep_mul_left u hv

theorem rep_add (hF : F.Odd) (hu : F.Rep u r) (hv : F.Rep v q) : F.Rep (F.add u v) (r + q) := by
  refine ⟨hF.add_lt hu.lt hv.lt, ?_⟩
  rw [← hu.eq, ← hv.eq, Field.add, modAdd_eq hF.le_radix hu.lt hv.lt]
  simp [Field.residue, montResidue, add_mul]

theorem rep_sub (hF : F.Odd) (hu : F.Rep u r) (hv : F.Rep v q) : F.Rep (F.sub u v) (r - q) := by
  refine ⟨hF.sub_lt hu.lt hv.lt, ?_⟩
  rw [← hu.eq, ← hv.eq, Field.sub, modSub_eq hF.le_radix hu.lt hv.lt]
  simp [Field.residue, montResidue, Nat.cast_sub hv.lt.le, sub_mul, ← sub_eq_add_neg]

theorem rep_dbl (hF : F.Odd) (hu : F.Rep u r) : F.Rep (F.dbl u) (2 * r) := by
  refine ⟨hF.dbl_lt hu.lt, ?_⟩
  rw [← hu.eq, Field.dbl, modDbl_eq hF.bits_pos hF.le_radix hu.lt]
  simp [Field.residue, montResidue, mul_assoc]

theorem rep_tpl (hF : F.Odd) (hu : F.Rep u r) : F.Rep (F.tpl u) (3 * r) := by
  rw [show 3 * r = 2 * r + r by ring]
  exact hF.rep_add (hF.rep_dbl hu) hu

/-- Reduced values are equal exactly when they stand for the same residue (43_point.md R203). -/
theorem residue_inj (hF : F.Odd) (hu : u < F.p) (hv : v < F.p) :
    F.residue u = F.residue v ↔ u = v := by
  have hunit : IsUnit ((2 : ZMod F.p) ^ F.bits)⁻¹ :=
    IsUnit.of_mul_eq_one_right _ (radix_mul_inv hF.odd F.bits)
  rw [Field.residue, Field.residue, montResidue, montResidue, hunit.mul_left_inj,
    ZMod.natCast_eq_natCast_iff', Nat.mod_eq_of_lt hu, Nat.mod_eq_of_lt hv]

/-- 2 is a unit modulo an odd `p` (00_scope.md R10). -/
theorem two_ne_zero (hF : F.Odd) (hp : F.p.Prime) : (2 : ZMod F.p) ≠ 0 := by
  have : Fact F.p.Prime := ⟨hp⟩
  simpa using (isUnit_radix hF.odd 1).ne_zero

@[simp] theorem residue_zero (F : Field) : F.residue 0 = 0 := by
  simp [Field.residue, montResidue]

theorem residue_eq_zero_iff (hF : F.Odd) (hu : u < F.p) : F.residue u = 0 ↔ u = 0 := by
  rw [← residue_zero F, hF.residue_inj hu hF.p_pos]

end Field.Odd

/-! ### Projective points over a ring: the formulas and the curve (43_point.md R214, R218, R225) -/

/-- The residues of a projective triple, in any commutative ring. -/
@[ext]
structure Proj (K : Type) where
  x : K
  y : K
  z : K

namespace Proj
variable {K : Type} [CommRing K]

/-- `DblFormula` (43_point.md R218). -/
def dbl (a : K) (P : Proj K) : Proj K :=
  let w := a * P.z ^ 2 + 3 * P.x ^ 2
  let u := 2 * (P.y * P.z)
  let R := P.y * u
  let B := (P.x + R) ^ 2 - P.x ^ 2 - R ^ 2
  let h := w ^ 2 - 2 * B
  ⟨h * u, w * (B - h) - 2 * R ^ 2, u ^ 3⟩

/-- `AddFormula` (43_point.md R225). -/
def add (P Q : Proj K) : Proj K :=
  let u := Q.y * P.z - P.y * Q.z
  let v := Q.x * P.z - P.x * Q.z
  let R := v ^ 2 * (P.x * Q.z)
  let A := u ^ 2 * (P.z * Q.z) - v ^ 3 - 2 * R
  ⟨v * A, u * (R - A) - v ^ 3 * (P.y * Q.z), v ^ 3 * (P.z * Q.z)⟩

/-- The curve equation (43_point.md R214). -/
def OnCurve (a b : K) (P : Proj K) : Prop :=
  P.y ^ 2 * P.z = P.x ^ 3 + a * P.x * P.z ^ 2 + b * P.z ^ 3

/-- `X1·Z2 = X2·Z1` (43_point.md R204, R224). -/
def SameX (P Q : Proj K) : Prop := P.x * Q.z = Q.x * P.z

/-- `Y1·Z2 = Y2·Z1` (43_point.md R204, R224). -/
def SameY (P Q : Proj K) : Prop := P.y * Q.z = Q.y * P.z

/-- Every coordinate multiplied by `c`: the same projective point for a unit `c`. -/
def scale (c : K) (P : Proj K) : Proj K := ⟨P.x * c, P.y * c, P.z * c⟩

theorem scale_one (P : Proj K) : P.scale 1 = P := by simp only [scale, mul_one]

theorem dbl_scale (a c : K) (P : Proj K) : (P.scale c).dbl a = (P.dbl a).scale (c ^ 6) := by
  simp only [dbl, scale, mk.injEq]
  refine ⟨?_, ?_, ?_⟩ <;> ring

/-- The formula is the same for the two orders but for the sign of all three coordinates. -/
theorem add_swap (P Q : Proj K) : Q.add P = (P.add Q).scale (-1) := by
  simp only [add, scale, mk.injEq]
  refine ⟨?_, ?_, ?_⟩ <;> ring

/-- Points of one class are one triple once each is scaled by the other's `Z`. -/
theorem scale_eq_scale {P Q : Proj K} (hx : SameX P Q) (hy : SameY P Q) :
    P.scale Q.z = Q.scale P.z := by
  simp only [scale, mk.injEq]
  exact ⟨hx, hy, mul_comm _ _⟩

/-- In a domain, points with a common nonzero multiple are in one class. -/
theorem same_of_scale_eq [IsDomain K] {P Q : Proj K} {c d : K} (hc : c ≠ 0) (hd : d ≠ 0)
    (h : P.scale c = Q.scale d) : SameX P Q ∧ SameY P Q := by
  obtain ⟨hx, hy, hz⟩ := Proj.mk.inj h
  have hcd := mul_ne_zero hc hd
  refine ⟨mul_right_cancel₀ hcd ?_, mul_right_cancel₀ hcd ?_⟩
  · linear_combination Q.z * d * hx - Q.x * d * hz
  · linear_combination Q.z * d * hy - Q.y * d * hz

/-- Of two finite points of one class both or neither have `Y = 0`. -/
theorem y_eq_zero_iff_of_sameY [IsDomain K] {P Q : Proj K} (hP : P.z ≠ 0) (hQ : Q.z ≠ 0)
    (h : SameY P Q) : P.y = 0 ↔ Q.y = 0 :=
  calc P.y = 0 ↔ P.y * Q.z = 0 := (mul_eq_zero_iff_right hQ).symm
    _ ↔ Q.y * P.z = 0 := by rw [h]
    _ ↔ Q.y = 0 := mul_eq_zero_iff_right hP

theorem dbl_z_ne_zero [IsDomain K] (a : K) {P : Proj K} (h2 : (2 : K) ≠ 0) (hy : P.y ≠ 0)
    (hz : P.z ≠ 0) : (P.dbl a).z ≠ 0 :=
  pow_ne_zero 3 (mul_ne_zero h2 (mul_ne_zero hy hz))

theorem add_z_ne_zero [IsDomain K] {P Q : Proj K} (hP : P.z ≠ 0) (hQ : Q.z ≠ 0)
    (h : ¬ SameX P Q) : (P.add Q).z ≠ 0 :=
  mul_ne_zero (pow_ne_zero 3 (sub_ne_zero_of_ne (Ne.symm h))) (mul_ne_zero hP hQ)

/-! #### The curve is closed under the formulas -/

theorem OnCurve.scale {a b : K} {P : Proj K} (h : P.OnCurve a b) (c : K) :
    (P.scale c).OnCurve a b := by
  simp only [OnCurve, Proj.scale] at h ⊢
  linear_combination c ^ 3 * h

/-- The double's equation is the point's, multiplied by `8·u³·R³` of the formula. -/
theorem OnCurve.dbl {a b : K} {P : Proj K} (h : P.OnCurve a b) : (P.dbl a).OnCurve a b := by
  simp only [OnCurve, Proj.dbl] at h ⊢
  linear_combination 8 * (2 * (P.y * P.z)) ^ 3 * (P.y * (2 * (P.y * P.z))) ^ 3 * h

/-- The third point of the chord through `(x, y, z)` with the differences `u` of `y` and `v` of `x`,
reflected: `AddFormula` (43_point.md R225) on points with one denominator. -/
def chord (x y z u v : K) : Proj K :=
  let A := u ^ 2 * z - v ^ 3 - 2 * (v ^ 2 * x)
  ⟨v * A, u * (v ^ 2 * x - A) - v ^ 3 * y, v ^ 3 * z⟩

/-- The sum is the chord's point once both points are brought to the denominator `Z1·Z2`. -/
theorem add_eq_chord (P Q : Proj K) :
    P.add Q = chord (P.x * Q.z) (P.y * Q.z) (P.z * Q.z) (Q.y * P.z - P.y * Q.z)
      (Q.x * P.z - P.x * Q.z) := rfl

/-- The chord's point satisfies the equation by a multiple of the first point's equation and a multiple
of the difference of the two. -/
theorem chord_onCurve {a b x y z u v : K} (h₁ : OnCurve a b ⟨x, y, z⟩)
    (h₂ : OnCurve a b ⟨x + v, y + u, z⟩) : (chord x y z u v).OnCurve a b := by
  simp only [OnCurve, chord] at h₁ h₂ ⊢
  linear_combination v ^ 9 * h₁ + v ^ 6 * (u ^ 2 * z - v ^ 3 - 3 * (v ^ 2 * x)) * (h₂ - h₁)

theorem OnCurve.add {a b : K} {P Q : Proj K} (hP : P.OnCurve a b) (hQ : Q.OnCurve a b) :
    (P.add Q).OnCurve a b := by
  rw [add_eq_chord]
  apply chord_onCurve (hP.scale Q.z)
  rw [add_sub_cancel, add_sub_cancel, mul_comm P.z]
  exact hQ.scale P.z

end Proj

/-! ### The model's point operations on residues (43_point.md R203) -/

/-- The residues that a triple stands for (43_point.md R203). -/
def Triple.residues (F : Field) (T : Triple) : Proj (ZMod F.p) :=
  ⟨F.residue T.x, F.residue T.y, F.residue T.z⟩

/-- The triple's residues satisfy the field's curve equation (43_point.md R214). -/
def Triple.OnCurve (F : Field) (T : Triple) : Prop :=
  (T.residues F).OnCurve (F.residue F.a) (F.residue F.b)

/-- Projective equality of two triples (43_point.md R204). -/
def Triple.ProjEq (F : Field) (P Q : Triple) : Prop :=
  (P.z = 0 ∧ Q.z = 0) ∨
    (P.z ≠ 0 ∧ Q.z ≠ 0 ∧ (P.residues F).SameX (Q.residues F) ∧ (P.residues F).SameY (Q.residues F))

namespace Triple.Reduced
variable {F : Field} {T : Triple}

theorem rep_x (h : T.Reduced F) : F.Rep T.x (F.residue T.x) := ⟨h.x_lt, rfl⟩
theorem rep_y (h : T.Reduced F) : F.Rep T.y (F.residue T.y) := ⟨h.y_lt, rfl⟩
theorem rep_z (h : T.Reduced F) : F.Rep T.z (F.residue T.z) := ⟨h.z_lt, rfl⟩

end Triple.Reduced

namespace Field.Odd
variable {F : Field} {P Q : Triple}

/-- The intermediate values of R218 stand for those of the formula, one by one. -/
theorem residues_dblFormula (hF : F.Odd) (hP : P.Reduced F) :
    (dblFormula F P).residues F = (P.residues F).dbl (F.residue F.a) := by
  have hXX := hF.rep_mul hP.rep_x hP.rep_x
  have hw := hF.rep_add (hF.rep_mul_left F.a (hF.rep_mul hP.rep_z hP.rep_z)) (hF.rep_tpl hXX)
  have hs := hF.rep_dbl (hF.rep_mul hP.rep_y hP.rep_z)
  have hR := hF.rep_mul hP.rep_y hs
  have hRR := hF.rep_mul hR hR
  have hXR := hF.rep_add hP.rep_x hR
  have hB := hF.rep_sub (hF.rep_sub (hF.rep_mul hXR hXR) hXX) hRR
  have hh := hF.rep_sub (hF.rep_mul hw hw) (hF.rep_dbl hB)
  have hX3 := hF.rep_mul hh hs
  have hY3 := hF.rep_sub (hF.rep_mul hw (hF.rep_sub hB hh)) (hF.rep_dbl hRR)
  have hZ3 := hF.rep_mul hs (hF.rep_mul hs hs)
  ext
  · exact hX3.eq.trans (by simp only [Proj.dbl, Triple.residues]; ring)
  · exact hY3.eq.trans (by simp only [Proj.dbl, Triple.residues]; ring)
  · exact hZ3.eq.trans (by simp only [Proj.dbl, Triple.residues]; ring)

/-- The intermediate values of R225 stand for those of the formula, one by one. -/
theorem residues_addFormula (hF : F.Odd) (hP : P.Reduced F) (hQ : Q.Reduced F) :
    (addFormula F P Q).residues F = (P.residues F).add (Q.residues F) := by
  have hYZ := hF.rep_mul hP.rep_y hQ.rep_z
  have hXZ := hF.rep_mul hP.rep_x hQ.rep_z
  have hZZ := hF.rep_mul hP.rep_z hQ.rep_z
  have hu := hF.rep_sub (hF.rep_mul hQ.rep_y hP.rep_z) hYZ
  have hv := hF.rep_sub (hF.rep_mul hQ.rep_x hP.rep_z) hXZ
  have hvv := hF.rep_mul hv hv
  have hvvv := hF.rep_mul hv hvv
  have hR := hF.rep_mul hvv hXZ
  have hA := hF.rep_sub (hF.rep_sub (hF.rep_mul (hF.rep_mul hu hu) hZZ) hvvv) (hF.rep_dbl hR)
  have hX3 := hF.rep_mul hv hA
  have hY3 := hF.rep_sub (hF.rep_mul hu (hF.rep_sub hR hA)) (hF.rep_mul hvvv hYZ)
  have hZ3 := hF.rep_mul hvvv hZZ
  ext
  · exact hX3.eq.trans (by simp only [Proj.add, Triple.residues]; ring)
  · exact hY3.eq.trans (by simp only [Proj.add, Triple.residues]; ring)
  · exact hZ3.eq.trans (by simp only [Proj.add, Triple.residues]; ring)

/-- The model's test of the `x` coordinates is the test of the residues (43_point.md R224). -/
theorem mul_x_eq_iff (hF : F.Odd) (P Q : Triple) :
    F.mul P.x Q.z = F.mul Q.x P.z ↔ (P.residues F).SameX (Q.residues F) := by
  rw [← hF.residue_inj (hF.mul_lt _ _) (hF.mul_lt _ _), hF.residue_mul, hF.residue_mul]
  rfl

/-- The model's test of the `y` coordinates is the test of the residues (43_point.md R224). -/
theorem mul_y_eq_iff (hF : F.Odd) (P Q : Triple) :
    F.mul P.y Q.z = F.mul Q.y P.z ↔ (P.residues F).SameY (Q.residues F) := by
  rw [← hF.residue_inj (hF.mul_lt _ _) (hF.mul_lt _ _), hF.residue_mul, hF.residue_mul]
  rfl

/-- PONC's test is the curve equation on the residues (43_point.md R214, R215). -/
theorem onCurve_iff (hF : F.Odd) (hP : P.Reduced F) : onCurve F P = true ↔ P.OnCurve F := by
  have hZZ := hF.rep_mul hP.rep_z hP.rep_z
  have hlhs := hF.rep_mul (hF.rep_mul hP.rep_y hP.rep_y) hP.rep_z
  have hrhs := hF.rep_add (hF.rep_add (hF.rep_mul (hF.rep_mul hP.rep_x hP.rep_x) hP.rep_x)
    (hF.rep_mul (hF.rep_mul_left F.a hP.rep_x) hZZ)) (hF.rep_mul_left F.b (hF.rep_mul hZZ hP.rep_z))
  rw [onCurve, decide_eq_true_iff, ← hF.residue_inj hlhs.lt hrhs.lt, hlhs.eq, hrhs.eq]
  exact Eq.congr (by simp only [Triple.residues]; ring) (by simp only [Triple.residues]; ring)

end Field.Odd

/-! ### The cases of doubling and addition (43_point.md R217, R224) -/

section Cases
variable {F : Field} {P Q : Triple}

theorem pointDbl_of_z_zero (hz : P.z = 0) : pointDbl F P = P := if_pos hz

theorem pointDbl_of_y_zero (hz : P.z ≠ 0) (hy : P.y = 0) : pointDbl F P = infinity := by
  rw [pointDbl, if_neg hz, if_pos hy]

theorem pointDbl_of_finite (hz : P.z ≠ 0) (hy : P.y ≠ 0) : pointDbl F P = dblFormula F P := by
  rw [pointDbl, if_neg hz, if_neg hy]

theorem pointAdd_of_right_z_zero (hQ : Q.z = 0) : pointAdd F P Q = P := if_pos hQ

theorem pointAdd_of_left_z_zero (hQ : Q.z ≠ 0) (hP : P.z = 0) : pointAdd F P Q = Q := by
  rw [pointAdd, if_neg hQ, if_pos hP]

theorem pointAdd_of_inverse (hF : F.Odd) (hQ : Q.z ≠ 0) (hP : P.z ≠ 0)
    (hx : (P.residues F).SameX (Q.residues F)) (hy : ¬ (P.residues F).SameY (Q.residues F)) :
    pointAdd F P Q = infinity := by
  rw [pointAdd, if_neg hQ, if_neg hP, if_pos ((hF.mul_x_eq_iff P Q).mpr hx),
    if_neg (mt (hF.mul_y_eq_iff P Q).mp hy)]

theorem pointAdd_of_same (hF : F.Odd) (hQ : Q.z ≠ 0) (hP : P.z ≠ 0)
    (hx : (P.residues F).SameX (Q.residues F)) (hy : (P.residues F).SameY (Q.residues F)) :
    pointAdd F P Q = pointDbl F P := by
  rw [pointAdd, if_neg hQ, if_neg hP, if_pos ((hF.mul_x_eq_iff P Q).mpr hx),
    if_pos ((hF.mul_y_eq_iff P Q).mpr hy)]

theorem pointAdd_of_not_sameX (hF : F.Odd) (hQ : Q.z ≠ 0) (hP : P.z ≠ 0)
    (hx : ¬ (P.residues F).SameX (Q.residues F)) : pointAdd F P Q = addFormula F P Q := by
  rw [pointAdd, if_neg hQ, if_neg hP, if_neg (mt (hF.mul_x_eq_iff P Q).mp hx)]

/-- Self-addition is doubling, the copy of an infinite point included (43_point.md R220). -/
theorem pointAdd_self (F : Field) (P : Triple) : pointAdd F P P = pointDbl F P := by
  by_cases hz : P.z = 0
  · rw [pointAdd_of_right_z_zero hz, pointDbl_of_z_zero hz]
  · rw [pointAdd, if_neg hz, if_neg hz, if_pos rfl, if_pos rfl]

/-- Addition of two points of one class is doubling of the first (43_point.md R220). -/
theorem pointAdd_of_projEq (hF : F.Odd) (h : P.ProjEq F Q) : pointAdd F P Q = pointDbl F P := by
  rcases h with ⟨hP, hQ⟩ | ⟨hP, hQ, hx, hy⟩
  · rw [pointAdd_of_right_z_zero hQ, pointDbl_of_z_zero hP]
  · exact pointAdd_of_same hF hQ hP hx hy

end Cases

/-! ### The curve is closed under the model's operations (43_point.md R218, R225, 44_ladder.md R265) -/

theorem infinity_onCurve (F : Field) : infinity.OnCurve F := by
  simp [Triple.OnCurve, Triple.residues, infinity, Proj.OnCurve]

namespace Field.Odd
variable {F : Field} {P Q : Triple}

theorem pointDbl_onCurve (hF : F.Odd) (hr : P.Reduced F) (hP : P.OnCurve F) :
    (pointDbl F P).OnCurve F := by
  unfold pointDbl
  split_ifs
  · exact hP
  · exact infinity_onCurve F
  · rw [Triple.OnCurve, hF.residues_dblFormula hr]
    exact Proj.OnCurve.dbl hP

theorem pointAdd_onCurve (hF : F.Odd) (hPr : P.Reduced F) (hQr : Q.Reduced F)
    (hP : P.OnCurve F) (hQ : Q.OnCurve F) : (pointAdd F P Q).OnCurve F := by
  unfold pointAdd
  split_ifs
  · exact hP
  · exact hQ
  · exact hF.pointDbl_onCurve hPr hP
  · exact infinity_onCurve F
  · rw [Triple.OnCurve, hF.residues_addFormula hPr hQr]
    exact Proj.OnCurve.add hP hQ

/-- Each iteration adds and doubles points on the curve only (44_ladder.md R262). -/
theorem ladderLoop_onCurve (hF : F.Odd) (k i : Nat) {Q R : Triple} (hQr : Q.Reduced F)
    (hRr : R.Reduced F) (hQ : Q.OnCurve F) (hR : R.OnCurve F) :
    (ladderLoop F k i Q R).OnCurve F := by
  induction i generalizing Q R with
  | zero => exact hQ
  | succ i ih =>
    unfold ladderLoop
    split_ifs
    · exact ih (hF.pointAdd_reduced hQr hRr) (hF.pointDbl_reduced hRr)
        (hF.pointAdd_onCurve hQr hRr hQ hR) (hF.pointDbl_onCurve hRr hR)
    · exact ih (hF.pointDbl_reduced hQr) (hF.pointAdd_reduced hRr hQr)
        (hF.pointDbl_onCurve hQr hQ) (hF.pointAdd_onCurve hRr hQr hR hQ)

theorem ladder_onCurve (hF : F.Odd) (hr : P.Reduced F) (hP : P.OnCurve F) (k : Nat) :
    (ladder F P k).OnCurve F :=
  hF.ladderLoop_onCurve k _ hF.infinity_reduced hr (infinity_onCurve F) hP

end Field.Odd

/-! ### Over a prime modulus: classes of points (43_point.md R204, R226, R231) -/

section Prime
variable {F : Field} {P Q S T : Triple}

theorem Triple.ProjEq.refl (F : Field) (P : Triple) : P.ProjEq F P := by
  by_cases hz : P.z = 0
  · exact .inl ⟨hz, hz⟩
  · exact .inr ⟨hz, hz, rfl, rfl⟩

/-- A residue of `Z` other than 0 is a `Z` other than 0. -/
theorem z_ne_zero_of_residue (h : (T.residues F).z ≠ 0) : T.z ≠ 0 :=
  fun hz => h (by rw [Triple.residues, hz, Field.Odd.residue_zero])

theorem Field.Odd.residues_z_ne_zero (hF : F.Odd) (hT : T.Reduced F) (hz : T.z ≠ 0) :
    (T.residues F).z ≠ 0 :=
  mt (hF.residue_eq_zero_iff hT.z_lt).mp hz

/-- Finite triples whose residues are multiples of one point are projectively equal. -/
theorem Triple.projEq_of_scale_eq (hp : F.p.Prime) (hS : (S.residues F).z ≠ 0)
    (hT : (T.residues F).z ≠ 0) {c d : ZMod F.p} (hc : c ≠ 0) (hd : d ≠ 0)
    (h : (S.residues F).scale c = (T.residues F).scale d) : S.ProjEq F T := by
  have : Fact F.p.Prime := ⟨hp⟩
  exact .inr ⟨z_ne_zero_of_residue hS, z_ne_zero_of_residue hT, Proj.same_of_scale_eq hc hd h⟩

/-- The doubles of finite points of one class are in one class: `DblFormula` is homogeneous. -/
theorem Field.Odd.pointDbl_projEq (hF : F.Odd) (hp : F.p.Prime) (hP : P.Reduced F)
    (hQ : Q.Reduced F) (hPz : P.z ≠ 0) (hQz : Q.z ≠ 0)
    (hx : (P.residues F).SameX (Q.residues F)) (hy : (P.residues F).SameY (Q.residues F)) :
    (pointDbl F P).ProjEq F (pointDbl F Q) := by
  have : Fact F.p.Prime := ⟨hp⟩
  have hzP := hF.residues_z_ne_zero hP hPz
  have hzQ := hF.residues_z_ne_zero hQ hQz
  have hyPQ : P.y = 0 ↔ Q.y = 0 := by
    rw [← hF.residue_eq_zero_iff hP.y_lt, ← hF.residue_eq_zero_iff hQ.y_lt]
    exact Proj.y_eq_zero_iff_of_sameY hzP hzQ hy
  by_cases hPy : P.y = 0
  · rw [pointDbl_of_y_zero hPz hPy, pointDbl_of_y_zero hQz (hyPQ.mp hPy)]
    exact Triple.ProjEq.refl F infinity
  · have hQy : Q.y ≠ 0 := mt hyPQ.mpr hPy
    have h2 := hF.two_ne_zero hp
    rw [pointDbl_of_finite hPz hPy, pointDbl_of_finite hQz hQy]
    refine Triple.projEq_of_scale_eq hp ?_ ?_ (pow_ne_zero 6 hzQ) (pow_ne_zero 6 hzP) ?_
    · rw [hF.residues_dblFormula hP]
      exact Proj.dbl_z_ne_zero _ h2 (mt (hF.residue_eq_zero_iff hP.y_lt).mp hPy) hzP
    · rw [hF.residues_dblFormula hQ]
      exact Proj.dbl_z_ne_zero _ h2 (mt (hF.residue_eq_zero_iff hQ.y_lt).mp hQy) hzQ
    · rw [hF.residues_dblFormula hP, hF.residues_dblFormula hQ, ← Proj.dbl_scale, ← Proj.dbl_scale,
        Proj.scale_eq_scale hx hy]

/-- The sums of points with different `x` in the two orders differ by the sign of the triple. -/
theorem Field.Odd.addFormula_projEq (hF : F.Odd) (hp : F.p.Prime) (hP : P.Reduced F)
    (hQ : Q.Reduced F) (hPz : P.z ≠ 0) (hQz : Q.z ≠ 0)
    (hx : ¬ (P.residues F).SameX (Q.residues F)) :
    (addFormula F P Q).ProjEq F (addFormula F Q P) := by
  have : Fact F.p.Prime := ⟨hp⟩
  have hzP := hF.residues_z_ne_zero hP hPz
  have hzQ := hF.residues_z_ne_zero hQ hQz
  refine Triple.projEq_of_scale_eq hp ?_ ?_ (neg_ne_zero.mpr one_ne_zero) one_ne_zero ?_
  · rw [hF.residues_addFormula hP hQ]
    exact Proj.add_z_ne_zero hzP hzQ hx
  · rw [hF.residues_addFormula hQ hP]
    exact Proj.add_z_ne_zero hzQ hzP (fun h => hx h.symm)
  · rw [hF.residues_addFormula hP hQ, hF.residues_addFormula hQ hP, ← Proj.add_swap, Proj.scale_one]

/-- Addition commutes up to projective equality, in every case of R224 (43_point.md R226). -/
theorem Field.Odd.pointAdd_comm (hF : F.Odd) (hp : F.p.Prime) (hP : P.Reduced F)
    (hQ : Q.Reduced F) : (pointAdd F P Q).ProjEq F (pointAdd F Q P) := by
  by_cases hQz : Q.z = 0
  · rw [pointAdd_of_right_z_zero hQz]
    by_cases hPz : P.z = 0
    · rw [pointAdd_of_right_z_zero hPz]
      exact .inl ⟨hPz, hQz⟩
    · rw [pointAdd_of_left_z_zero hPz hQz]
      exact Triple.ProjEq.refl F P
  by_cases hPz : P.z = 0
  · rw [pointAdd_of_left_z_zero hQz hPz, pointAdd_of_right_z_zero hPz]
    exact Triple.ProjEq.refl F Q
  by_cases hx : (P.residues F).SameX (Q.residues F)
  · by_cases hy : (P.residues F).SameY (Q.residues F)
    · rw [pointAdd_of_same hF hQz hPz hx hy, pointAdd_of_same hF hPz hQz hx.symm hy.symm]
      exact hF.pointDbl_projEq hp hP hQ hPz hQz hx hy
    · rw [pointAdd_of_inverse hF hQz hPz hx hy,
        pointAdd_of_inverse hF hPz hQz hx.symm (fun h => hy h.symm)]
      exact Triple.ProjEq.refl F infinity
  · rw [pointAdd_of_not_sameX hF hQz hPz hx,
      pointAdd_of_not_sameX hF hPz hQz (fun h => hx h.symm)]
    exact hF.addFormula_projEq hp hP hQ hPz hQz hx

end Prime

/-! ### Reduction to affine form (43_point.md R230, R231) -/

section Affine
variable {F : Field} {P : Triple}

theorem toAffine_of_z_zero (hz : P.z = 0) : toAffine F P = infinity := if_pos hz

/-- The affine form's `Z` is `ONE_p` (42_modexp.md R181). -/
theorem toAffine_z (hz : P.z ≠ 0) : (toAffine F P).z = oneMont F.bits F.p := by
  rw [toAffine, if_neg hz]

/-- The residues of the affine form: `X` and `Y` times the power `p − 2` of `Z`, and 1. -/
theorem Field.Odd.residues_toAffine (hF : F.Odd) (hz : P.z ≠ 0) :
    (toAffine F P).residues F =
      ⟨F.residue P.x * F.residue P.z ^ (F.p - 2), F.residue P.y * F.residue P.z ^ (F.p - 2), 1⟩ := by
  have hk : F.p - 2 < 2 ^ F.bits := by have := hF.one_lt; have := hF.le_radix; omega
  have hinv : F.residue (montInv F.bits F.p P.z) = F.residue P.z ^ (F.p - 2) :=
    montResidue_montExp hF.odd hk P.z
  have hone : F.residue (oneMont F.bits F.p) = 1 := montResidue_oneMont hF.odd F.bits
  rw [toAffine, if_neg hz, Triple.residues, hF.residue_mul, hF.residue_mul, hinv, hone]

/-- Over a prime modulus the affine form is the same point: the power `p − 2` inverts `Z`. -/
theorem Field.Odd.toAffine_projEq (hF : F.Odd) (hp : F.p.Prime) (hP : P.Reduced F) :
    (toAffine F P).ProjEq F P := by
  by_cases hz : P.z = 0
  · rw [toAffine_of_z_zero hz]
    exact .inl ⟨rfl, hz⟩
  · have : Fact F.p.Prime := ⟨hp⟩
    have hzP := hF.residues_z_ne_zero hP hz
    have hinv : F.residue P.z * F.residue P.z ^ (F.p - 2) = 1 := mul_pow_sub_two_eq_one hp hzP
    refine Triple.projEq_of_scale_eq hp ?_ hzP one_ne_zero (right_ne_zero_of_mul_eq_one hinv) ?_
    · rw [hF.residues_toAffine hz]
      exact one_ne_zero
    · rw [hF.residues_toAffine hz, Proj.scale_one, Proj.scale, Triple.residues, hinv]

end Affine

end Sys2Proof.Machine

namespace Sys2Proof.Machine

/-! ### Point registers as triples of the field (43_point.md R201, R203) -/

/-- The field of a command on the set `p` that executes has an odd modulus (41_modular.md R142). -/
theorem CanExecute.field_odd {i : Instr} {s : State} (h : CanExecute i s)
    (hp : usedSet i = some .p) : s.field.Odd :=
  ⟨h.field_usable hp, h.modulus_odd hp⟩

theorem wide_toNat_eq_zero_iff (r : Wide) : r.toNat = 0 ↔ r = 0 := by
  rw [← BitVec.toNat_inj, BitVec.ofNat_eq_ofNat, BitVec.toNat_zero]

theorem Point.triple_z_eq_zero_iff (P : Point) : P.triple.z = 0 ↔ P.z = 0 :=
  wide_toNat_eq_zero_iff P.z

theorem Point.triple_y_eq_zero_iff (P : Point) : P.triple.y = 0 ↔ P.y = 0 :=
  wide_toNat_eq_zero_iff P.y

/-- A reduced triple is kept whole in a point register (00_scope.md R11). -/
theorem Triple.Reduced.point_triple {s : State} {T : Triple} (hT : T.Reduced s.field) :
    T.point.triple = T := by
  simp only [Triple.point, Point.triple, toNat_zextWide_of_lt_wide (r := s.consts.p) hT.x_lt,
    toNat_zextWide_of_lt_wide (r := s.consts.p) hT.y_lt,
    toNat_zextWide_of_lt_wide (r := s.consts.p) hT.z_lt]

theorem Triple.Reduced.point_coords_lt {s : State} {T : Triple} (hT : T.Reduced s.field) :
    ∀ r ∈ T.point.coords, r.toNat < s.consts.p.toNat := by
  have hlt : T.point.triple.Reduced s.field := hT.point_triple.symm ▸ hT
  simp only [Point.coords, List.forall_mem_cons, List.not_mem_nil, false_imp_iff, implies_true,
    and_true]
  exact ⟨hlt.x_lt, hlt.y_lt, hlt.z_lt⟩

theorem State.onCurve_iff_triple (s : State) (P : Point) : s.OnCurve P ↔ P.triple.OnCurve s.field :=
  Iff.rfl

theorem State.projEq_iff_triple (s : State) (P Q : Point) :
    s.ProjEq P Q ↔ P.triple.ProjEq s.field Q.triple := by
  simp only [Triple.ProjEq, Point.triple_z_eq_zero_iff, ne_eq]
  exact Iff.rfl

theorem State.isDblFormula_point {s : State} {P : Point} (hF : s.field.Odd)
    (hP : P.triple.Reduced s.field) : s.IsDblFormula P (dblFormula s.field P.triple).point := by
  have hT := hF.dblFormula_reduced P.triple
  have hres := hF.residues_dblFormula hP
  rw [← hT.point_triple] at hres
  obtain ⟨hx, hy, hz⟩ := Proj.mk.inj hres
  exact ⟨hT.point_coords_lt, hx, hy, hz⟩

theorem State.isAddFormula_point {s : State} {P Q : Point} (hF : s.field.Odd)
    (hP : P.triple.Reduced s.field) (hQ : Q.triple.Reduced s.field) :
    s.IsAddFormula P Q (addFormula s.field P.triple Q.triple).point := by
  have hT := hF.addFormula_reduced P.triple Q.triple
  have hres := hF.residues_addFormula hP hQ
  rw [← hT.point_triple] at hres
  obtain ⟨hx, hy, hz⟩ := Proj.mk.inj hres
  exact ⟨hT.point_coords_lt, hx, hy, hz⟩

/-- What a point register holds after the completion that wrote it. -/
theorem readPt_complete_writePt (s : State) (d : PtField) (P : Point) :
    ((s.writePt d P).complete .none).readPt d = P := by
  simp

/-- A command can execute where one on the same modulus set can whose reads include its own. -/
theorem CanExecute.of_reads_subset {i j : Instr} {s : State} (h : CanExecute i s)
    (hf : wellFormed j = true) (hv : sourceVs j ⊆ sourceVs i) (hp : sourcePts j ⊆ sourcePts i)
    (hm : usedSet j = usedSet i) (hc : sourceConsts j s ⊆ sourceConsts i s)
    (hr : reducedReads j s ⊆ reducedReads i s) : CanExecute j s := by
  obtain ⟨-, hsize, hset, hred⟩ := h
  have hw : wideReads j s ⊆ wideReads i s := by
    intro r
    simp only [wideReads, hm, List.mem_append, List.mem_map, List.mem_flatMap]
    rintro (((⟨f, hfj, rfl⟩ | ⟨k, hkj, hrk⟩) | hmod) | hconst)
    · exact .inl (.inl (.inl ⟨f, hv hfj, rfl⟩))
    · exact .inl (.inl (.inr ⟨k, hp hkj, hrk⟩))
    · exact .inl (.inr hmod)
    · exact .inr (hc hconst)
  exact ⟨hf, fun hs r hrj => hsize hs r (hw hrj), fun m hmj => hset m (hm ▸ hmj),
    fun m hmj x hx => hred m (hm ▸ hmj) x (hr hx)⟩

/-! ### The point commands (43_point.md) -/

section Sources
variable {i : Instr} {s : State} {k ptd pts1 pts2 : PtField}

/-- The coordinates of every source point are in REDUCED where the set `p` is used
(43_point.md R200). -/
theorem coord_mem_reducedReads (hp : usedSet i = some .p) (hk : k ∈ sourcePts i) {r : Wide}
    (hr : r ∈ (s.readPt k).coords) : r ∈ reducedReads i s := by
  cases i
  case ponc | pdbl | pmul =>
    obtain rfl := List.mem_singleton.mp hk
    exact List.mem_append_left _ hr
  case paff =>
    obtain rfl := List.mem_singleton.mp hk
    exact hr
  case padd =>
    rcases List.mem_pair.mp hk with rfl | rfl
    · exact List.mem_append_left _ (List.mem_append_left _ hr)
    · exact List.mem_append_left _ (List.mem_append_right _ hr)
  case pmov | pget | pisinf => exact nomatch hp
  all_goals exact nomatch hk

/-- Every source point of a command that executes on the set `p` is reduced. -/
theorem CanExecute.readPt_reduced (h : CanExecute i s) (hp : usedSet i = some .p)
    (hk : k ∈ sourcePts i) : (s.readPt k).triple.Reduced s.field :=
  h.source_reduced hp fun _ hr => coord_mem_reducedReads hp hk hr

theorem CanExecute.padd_left_reduced (h : CanExecute (.padd ptd pts1 pts2) s) :
    (s.readPt pts1).triple.Reduced s.field :=
  h.readPt_reduced rfl (List.mem_pair.mpr (.inl rfl))

theorem CanExecute.padd_right_reduced (h : CanExecute (.padd ptd pts1 pts2) s) :
    (s.readPt pts2).triple.Reduced s.field :=
  h.readPt_reduced rfl (List.mem_pair.mpr (.inr rfl))

/-- The fields that PADD checks (30_encoding.md R92). -/
theorem CanExecute.padd_fields (h : CanExecute (.padd ptd pts1 pts2) s) :
    ptFieldOk ptd = true ∧ ptFieldOk pts1 = true ∧ ptFieldOk pts2 = true := by
  obtain ⟨hf, -⟩ := h
  simpa only [wellFormed, Bool.and_eq_true] using hf

/-- PADD reads the same registers in the other order. -/
theorem CanExecute.padd_swap (h : CanExecute (.padd ptd pts1 pts2) s) :
    CanExecute (.padd ptd pts2 pts1) s := by
  obtain ⟨hd, h1, h2⟩ := h.padd_fields
  refine h.of_reads_subset (by simp only [wellFormed, hd, h1, h2, Bool.and_self])
    (List.Subset.refl _) (by simp [sourcePts]) rfl (List.Subset.refl _) fun r => ?_
  simp only [reducedReads, List.mem_append]
  tauto

/-- PDBL of PADD's first source reads no more than PADD. -/
theorem CanExecute.pdbl_of_padd (h : CanExecute (.padd ptd pts1 pts2) s) :
    CanExecute (.pdbl ptd pts1) s := by
  obtain ⟨hd, h1, -⟩ := h.padd_fields
  refine h.of_reads_subset (by simp only [wellFormed, hd, h1, Bool.and_self])
    (List.Subset.refl _) (by simp [sourcePts]) rfl (List.Subset.refl _) fun r => ?_
  simp only [reducedReads, List.mem_append]
  tauto

end Sources

/-- Settles O33: the point register written is read back, also where it is the source. -/
theorem pmovCopiesThePoint : Obligations.PmovCopiesThePoint := by
  intro ptd pts s h
  exact ⟨_, exec_pmov_ok h, State.complete_err _ _, readPt_complete_writePt _ _ _⟩

/-- Settles O36: RES is the test of `Z`'s value. -/
theorem pisinfTestsZ : Obligations.PisinfTestsZ := by
  intro pts s h
  refine ⟨_, exec_pisinf_ok h, State.complete_err _ _, ?_, rfl, rfl⟩
  exact decide_eq_true_iff.trans (Point.triple_z_eq_zero_iff _)

/-- Settles O37: the two sides that PONC compares are reduced values of the equation's residues. -/
theorem poncTestsTheCurveEquation : Obligations.PoncTestsTheCurveEquation := by
  intro pts s h
  refine ⟨_, exec_ponc_ok h, State.complete_err _ _, ?_, rfl, rfl⟩
  exact (h.field_odd rfl).onCurve_iff (h.readPt_reduced rfl (List.mem_singleton_self _))

/-- Settles O38: by the cases of `Dbl`. -/
theorem pdblFollowsTheDoublingFormulas : Obligations.PdblFollowsTheDoublingFormulas := by
  intro ptd pts s h
  have hF := h.field_odd rfl
  refine ⟨_, exec_pdbl_ok h, State.complete_err _ _, ?_⟩
  rw [readPt_complete_writePt]
  simp only [ne_eq, ← Point.triple_z_eq_zero_iff, ← Point.triple_y_eq_zero_iff]
  refine ⟨fun hz => ?_, fun hz hy => ?_, fun hz hy => ?_⟩
  · rw [pointDbl_of_z_zero hz, Point.triple_point]
  · rw [pointDbl_of_y_zero hz hy, infinity_point]
  · rw [pointDbl_of_finite hz hy]
    exact State.isDblFormula_point hF (h.readPt_reduced rfl (List.mem_singleton_self _))

/-- Settles O39: by the cases of `Add`, whose tests of the coordinates are tests of the residues. -/
theorem paddFollowsTheAdditionFormulas : Obligations.PaddFollowsTheAdditionFormulas := by
  intro ptd pts1 pts2 s h P Q sameX sameY
  have hF := h.field_odd rfl
  refine ⟨_, exec_padd_ok h, State.complete_err _ _, ?_⟩
  rw [readPt_complete_writePt]
  simp only [ne_eq, ← Point.triple_z_eq_zero_iff, ← Point.triple_y_eq_zero_iff]
  refine ⟨fun hQ => ?_, fun hQ hP => ?_, fun hQ hP hx hy => ?_, fun hQ hP hx hy hy0 => ?_,
    fun hQ hP hx hy hy0 => ?_, fun hQ hP hx => ?_⟩
  · rw [pointAdd_of_right_z_zero hQ, Point.triple_point]
  · rw [pointAdd_of_left_z_zero hQ hP, Point.triple_point]
  · rw [pointAdd_of_inverse hF hQ hP hx hy, infinity_point]
  · rw [pointAdd_of_same hF hQ hP hx hy, pointDbl_of_y_zero hP hy0, infinity_point]
  · rw [pointAdd_of_same hF hQ hP hx hy, pointDbl_of_finite hP hy0]
    exact State.isDblFormula_point hF h.padd_left_reduced
  · rw [pointAdd_of_not_sameX hF hQ hP hx]
    exact State.isAddFormula_point hF h.padd_left_reduced h.padd_right_reduced

/-- PADD of two registers with one triple makes PDBL's checks and has its effect. -/
theorem exec_padd_of_readPt_eq {ptd pts1 pts2 : PtField} {s : State}
    (hok : ptFieldOk pts2 = ptFieldOk pts1) (h : s.readPt pts1 = s.readPt pts2) :
    exec (.padd ptd pts1 pts2) s = exec (.pdbl ptd pts1) s := by
  simp only [exec, execPadd, execPdbl]
  refine runCommand_congr ?_ fun _ => ?_
  · rw [validate_congr_reduced _ _ (l := (s.readPt pts1).coords ++ [s.consts.a]) (by simp [← h])]
    exact validate_congr (by simp [wellFormed, hok]) (by simp [← h]) rfl (fun _ => rfl)
  · simp only [← h, pointAdd_self]

/-- Settles O40: `Add` of two points of one class is `Dbl` of the first. -/
theorem paddOfEqualPointsIsPdbl : Obligations.PaddOfEqualPointsIsPdbl := by
  refine ⟨fun ptd pts1 pts2 s => exec_padd_of_readPt_eq, fun ptd pts1 pts2 s t u h hPQ ht hu => ?_⟩
  rw [readPt_of_exec_writePt (exec_padd_ok h) ht,
    readPt_of_exec_writePt (exec_pdbl_ok h.pdbl_of_padd) hu,
    pointAdd_of_projEq (h.field_odd rfl) ((s.projEq_iff_triple _ _).mp hPQ)]

/-- Settles O41: the written triples are reduced, so the registers' classes are those of `Add`. -/
theorem paddCommutesProjectively : Obligations.PaddCommutesProjectively := by
  intro ptd pts1 pts2 s h hp
  have hF := h.field_odd rfl
  have hP := h.padd_left_reduced
  have hQ := h.padd_right_reduced
  refine ⟨_, _, exec_padd_ok h, exec_padd_ok h.padd_swap, ?_⟩
  rw [readPt_complete_writePt, readPt_complete_writePt, State.projEq_iff_triple,
    (hF.pointAdd_reduced hP hQ).point_triple, (hF.pointAdd_reduced hQ hP).point_triple]
  exact hF.pointAdd_comm hp hP hQ

/-- Settles O42: the inverse of `Z` that PAFF multiplies by is its power `p − 2`. -/
theorem paffReducesToAffineForm : Obligations.PaffReducesToAffineForm := by
  intro ptd pts s h P p
  have hF := h.field_odd rfl
  have hT := hF.toAffine_reduced P.triple
  refine ⟨_, exec_paff_ok h, State.complete_err _ _, ?_⟩
  rw [readPt_complete_writePt]
  refine ⟨fun hz => ?_, fun hz => ?_, fun hp => ?_⟩
  · rw [toAffine_of_z_zero ((Point.triple_z_eq_zero_iff P).mpr hz), infinity_point]
  · have hz' : P.triple.z ≠ 0 := mt (Point.triple_z_eq_zero_iff P).mp hz
    have hres := hF.residues_toAffine hz'
    rw [← hT.point_triple] at hres
    obtain ⟨hx, hy, -⟩ := Proj.mk.inj hres
    exact ⟨hT.point_coords_lt, (congrArg Triple.z hT.point_triple).trans (toAffine_z hz'), hx, hy⟩
  · rw [State.projEq_iff_triple, hT.point_triple]
    exact hF.toAffine_projEq hp (h.readPt_reduced rfl (List.mem_singleton_self _))

/-! ### The curve (43_point.md R218, R225, 44_ladder.md R265) -/

/-- Settles O46: by the curve's closure under `Dbl`. -/
theorem pdblStaysOnTheCurve : Obligations.PdblStaysOnTheCurve := by
  intro ptd pts s t h _ hP ht
  have hF := h.field_odd rfl
  have hr := h.readPt_reduced rfl (List.mem_singleton_self pts)
  rw [readPt_of_exec_writePt (exec_pdbl_ok h) ht, State.onCurve_iff_triple,
    (hF.pointDbl_reduced hr).point_triple]
  exact hF.pointDbl_onCurve hr hP

/-- Settles O47: by the curve's closure under `Add`. -/
theorem paddStaysOnTheCurve : Obligations.PaddStaysOnTheCurve := by
  intro ptd pts1 pts2 s t h _ hP hQ ht
  have hF := h.field_odd rfl
  have hPr := h.padd_left_reduced
  have hQr := h.padd_right_reduced
  rw [readPt_of_exec_writePt (exec_padd_ok h) ht, State.onCurve_iff_triple,
    (hF.pointAdd_reduced hPr hQr).point_triple]
  exact hF.pointAdd_onCurve hPr hQr hP hQ

/-- Settles O48: by the curve's closure under the ladder. -/
theorem pmulStaysOnTheCurve : Obligations.PmulStaysOnTheCurve := by
  intro ptd pts vk s t h _ hP ht
  have hF := h.field_odd rfl
  have hr := h.readPt_reduced rfl (List.mem_singleton_self pts)
  rw [readPt_of_exec_writePt (exec_pmul_ok h) ht, State.onCurve_iff_triple,
    (hF.ladder_reduced hr _).point_triple]
  exact hF.ladder_onCurve hr hP _

end Sys2Proof.Machine

namespace Sys2Proof.Machine

/-! ### The ladder and its swap form (44_ladder.md R262, R263) -/

section Loop
variable {F : Field} {P : Triple} {k i : Nat}

/-- In each iteration the swaps bind the operands as the ladder's branch on `k_i` does. -/
theorem swapLoop_fst (F : Field) (k i : Nat) (Q R : Triple) :
    (swapLoop F k i (Q, R)).1 = ladderLoop F k i Q R := by
  induction i generalizing Q R with
  | zero => rfl
  | succ i ih =>
    cases hb : k.testBit i <;> simp [swapLoop, ladderLoop, hb, ih]

/-! ### The iterations above the scalar's top bit (44_ladder.md R265) -/

theorem pointDbl_infinity (F : Field) : pointDbl F infinity = infinity :=
  pointDbl_of_z_zero rfl

theorem pointAdd_infinity (F : Field) (P : Triple) : pointAdd F P infinity = P :=
  pointAdd_of_right_z_zero rfl

theorem infinity_pointAdd (hz : P.z ≠ 0) : pointAdd F infinity P = P :=
  pointAdd_of_left_z_zero hz rfl

/-- An iteration for a bit 0 from infinity copies both points. -/
theorem ladderLoop_infinity_of_bit_false (h : k.testBit i = false) :
    ladderLoop F k (i + 1) infinity P = ladderLoop F k i infinity P := by
  simp [ladderLoop, h, pointDbl_infinity, pointAdd_infinity]

/-- The iterations above a scalar of `i` bits leave the start values. -/
theorem ladderLoop_infinity_of_lt_two_pow {n : Nat} (hk : k < 2 ^ i) (hin : i ≤ n) :
    ladderLoop F k n infinity P = ladderLoop F k i infinity P := by
  induction n, hin using Nat.le_induction with
  | base => rfl
  | succ n hin ih =>
    have hbit : k.testBit n = false :=
      Nat.testBit_lt_two_pow (hk.trans_le (Nat.pow_le_pow_right two_pos hin))
    rw [ladderLoop_infinity_of_bit_false hbit, ih]

theorem ladder_zero (F : Field) (P : Triple) : ladder F P 0 = infinity :=
  ladderLoop_infinity_of_lt_two_pow (i := 0) one_pos (Nat.zero_le _)

/-- The last iteration adds the source point to infinity, which copies it. -/
theorem ladder_one (hF : F.Usable) (hz : P.z ≠ 0) : ladder F P 1 = P :=
  calc ladder F P 1 = ladderLoop F 1 1 infinity P :=
        ladderLoop_infinity_of_lt_two_pow one_lt_two hF.bits_pos
    _ = pointAdd F infinity P := rfl
    _ = P := infinity_pointAdd hz

end Loop

/-! ### Infinity stays canonical (43_point.md R218, R225, 44_ladder.md R265) -/

/-- The triple is finite or exactly the canonical infinity (10_state.md R26). -/
def Triple.Canonical (T : Triple) : Prop := T.z = 0 → T = infinity

theorem infinity_canonical : infinity.Canonical := fun _ => rfl

theorem Triple.Canonical.of_z_ne_zero {T : Triple} (hz : T.z ≠ 0) : T.Canonical :=
  fun h => absurd h hz

namespace Field.Odd
variable {F : Field} {P Q R : Triple}

/-- Over a prime, doubling a finite point with `Y ≠ 0` by the formula gives a finite point. -/
theorem dblFormula_z_ne_zero (hF : F.Odd) (hp : F.p.Prime) (hP : P.Reduced F) (hz : P.z ≠ 0)
    (hy : P.y ≠ 0) : (dblFormula F P).z ≠ 0 := by
  have : Fact F.p.Prime := ⟨hp⟩
  refine z_ne_zero_of_residue (F := F) ?_
  rw [hF.residues_dblFormula hP]
  exact Proj.dbl_z_ne_zero _ (hF.two_ne_zero hp) (mt (hF.residue_eq_zero_iff hP.y_lt).mp hy)
    (hF.residues_z_ne_zero hP hz)

/-- Over a prime, adding finite points with different `x` by the formula gives a finite point. -/
theorem addFormula_z_ne_zero (hF : F.Odd) (hp : F.p.Prime) (hP : P.Reduced F) (hQ : Q.Reduced F)
    (hPz : P.z ≠ 0) (hQz : Q.z ≠ 0) (hx : F.mul P.x Q.z ≠ F.mul Q.x P.z) :
    (addFormula F P Q).z ≠ 0 := by
  have : Fact F.p.Prime := ⟨hp⟩
  refine z_ne_zero_of_residue (F := F) ?_
  rw [hF.residues_addFormula hP hQ]
  exact Proj.add_z_ne_zero (hF.residues_z_ne_zero hP hPz) (hF.residues_z_ne_zero hQ hQz)
    (mt (hF.mul_x_eq_iff P Q).mpr hx)

theorem pointDbl_canonical (hF : F.Odd) (hp : F.p.Prime) (hP : P.Reduced F) (hc : P.Canonical) :
    (pointDbl F P).Canonical := by
  unfold pointDbl
  split_ifs with hz hy
  · exact hc
  · exact infinity_canonical
  · exact .of_z_ne_zero (hF.dblFormula_z_ne_zero hp hP hz hy)

/-- `Add` copies its second operand only where that is finite, so only the first need be
canonical. -/
theorem pointAdd_canonical (hF : F.Odd) (hp : F.p.Prime) (hP : P.Reduced F) (hQ : Q.Reduced F)
    (hc : P.Canonical) : (pointAdd F P Q).Canonical := by
  unfold pointAdd
  split_ifs with hQz hPz hx hy
  · exact hc
  · exact .of_z_ne_zero hQz
  · exact hF.pointDbl_canonical hp hP hc
  · exact infinity_canonical
  · exact .of_z_ne_zero (hF.addFormula_z_ne_zero hp hP hQ hPz hQz hx)

/-- The loop's invariant: `Q` is canonical, whatever infinity `R` may be. -/
theorem ladderLoop_canonical (hF : F.Odd) (hp : F.p.Prime) (k i : Nat) (hQ : Q.Reduced F)
    (hR : R.Reduced F) (hc : Q.Canonical) : (ladderLoop F k i Q R).Canonical := by
  induction i generalizing Q R with
  | zero => exact hc
  | succ i ih =>
    unfold ladderLoop
    split_ifs
    · exact ih (hF.pointAdd_reduced hQ hR) (hF.pointDbl_reduced hR)
        (hF.pointAdd_canonical hp hQ hR hc)
    · exact ih (hF.pointDbl_reduced hQ) (hF.pointAdd_reduced hR hQ)
        (hF.pointDbl_canonical hp hQ hc)

theorem ladder_canonical (hF : F.Odd) (hp : F.p.Prime) (hP : P.Reduced F) (k : Nat) :
    (ladder F P k).Canonical :=
  hF.ladderLoop_canonical hp k _ hF.infinity_reduced hP infinity_canonical

end Field.Odd

/-- Settles O43: the loop's first point in the swap form is the ladder's. -/
theorem pmulIsTheSwapLadder : Obligations.PmulIsTheSwapLadder := by
  intro ptd pts vk s h
  refine ⟨_, exec_pmul_ok h, State.complete_err _ _, ?_⟩
  rw [readPt_complete_writePt, swapLoop_fst]
  rfl

/-- Settles O44: only the iteration for bit 0 can change the start values. -/
theorem pmulByZeroAndOne : Obligations.PmulByZeroAndOne := by
  intro ptd pts vk s h
  refine ⟨_, exec_pmul_ok h, State.complete_err _ _, ?_⟩
  rw [readPt_complete_writePt]
  refine ⟨fun hk => ?_, fun hk hz => ?_⟩
  · have hk0 : (s.readV vk).toNat = 0 := (wide_toNat_eq_zero_iff _).mpr hk
    rw [hk0, ladder_zero, infinity_point]
  · have hk1 : (s.readV vk).toNat = 1 := by rw [hk, BitVec.ofNat_eq_ofNat, BitVec.toNat_one (by decide)]
    have hz' : (s.readPt pts).triple.z ≠ 0 := mt (Point.triple_z_eq_zero_iff _).mp hz
    rw [hk1, ladder_one (h.field_usable rfl) hz', Point.triple_point]

/-- Settles O45: the result is a reduced triple, kept whole in the register, and canonical. -/
theorem pmulInfinityIsCanonical : Obligations.PmulInfinityIsCanonical := by
  intro ptd pts vk s t h hp ht hz
  have hF := h.field_odd rfl
  have hr := h.readPt_reduced rfl (List.mem_singleton_self pts)
  have hT := hF.ladder_reduced hr (s.readV vk).toNat
  rw [readPt_of_exec_writePt (exec_pmul_ok h) ht] at hz ⊢
  have hz' : (ladder s.field (s.readPt pts).triple (s.readV vk).toNat).z = 0 := by
    rwa [← Point.triple_z_eq_zero_iff, hT.point_triple] at hz
  rw [hF.ladder_canonical hp hr _ hz', infinity_point]

end Sys2Proof.Machine

namespace Sys2Proof.Machine

/-! ### No step stops (93_implementation_defined.md section 3, 60_exceptions.md R286) -/

/-- The engine's turn answers a next state: it is idle or completes the pending value. -/
theorem engineStep_next (s : State) : ∃ t, engineStep s = .next t := by
  cases hp : s.pending with
  | none => exact ⟨s, engineStep_of_idle hp⟩
  | some c =>
    obtain ⟨-, u, code, he, -⟩ := completeWord_completes c.word s
    exact ⟨u.complete code, (engineStep_of_pending hp).trans he⟩

/-- Serving an event answers a next state: no host access can stop MMEC (20_memory.md R62). -/
theorem serveEvent_next (e : Event) (s : State) : ∃ t, serveEvent e s = .next t := by
  cases e with
  | read off bytes => exact ⟨s.hostRead off bytes, rfl⟩
  | write off bytes x => exact ⟨s.hostWrite off bytes x, rfl⟩
  | engine => exact engineStep_next s
  | hardReset => exact ⟨s.resetAll, rfl⟩

/-- Settles O7: a step is the engine's turn or one event served, and each answers a next state. -/
theorem everyStepAnswersANextState : Obligations.EveryStepAnswersANextState := by
  intro s
  rcases step_cases s with ⟨-, he⟩ | ⟨e, rest, -, he⟩ <;> rw [he]
  · exact engineStep_next s
  · exact serveEvent_next e { s with inbox := rest }

/-! ### Errors have no effect but the completion (60_exceptions.md R284) -/

/-- A value that ends with an error is completed on the state it was pending in: a rejected value
reaches no effect, and neither does a command that fails a check. -/
theorem eq_complete_of_completeWord_err {w : Limb} {s t : State} (h : completeWord w s = .next t)
    (herr : t.status.err ≠ .none) : t = s.complete t.status.err := by
  cases hd : decode w with
  | ok i =>
    rw [completeWord_of_ok hd] at h
    obtain ⟨u, code, rfl, -, hu⟩ := complete_of_exec h
    obtain rfl := hu herr
    rfl
  | error e =>
    rw [completeWord_of_error hd] at h
    obtain rfl := Host.Outcome.next.inj h
    rfl

/-- Settles O13: the completion step writes ERR, DONE and the pending command only. -/
theorem errorsHaveNoOtherEffect : Obligations.ErrorsHaveNoOtherEffect :=
  fun _ _ _ h herr => eq_complete_of_completeWord_err h herr

end Sys2Proof.Machine

namespace Sys2Proof.Machine

/-! ### What is still to come from outside (70_reset_and_hazards.md R341, notes/assumptions/1.md) -/

/-- No legal write reaches the events to come, a soft reset included. -/
@[simp] theorem State.legalWrite_inbox (s : State) (r : WinReg) (x : Limb) :
    (s.legalWrite r x).inbox = s.inbox := by
  cases r with
  | id | status | reserved => rfl
  | ctrl =>
    rw [State.legalWrite, State.writeCtrl]
    split <;> rfl
  | cmd =>
    rw [State.legalWrite, State.writeCmd]
    split <;> rfl
  | n0p | n0q | v | pt | const =>
    rw [State.legalWrite, State.writeData]
    split
    · rfl
    · exact s.storeData_inbox _ x

/-- A host read changes `reply` and BUSERR only (20_memory.md R62). -/
@[simp] theorem State.hostRead_inbox (s : State) (off : BitVec 12) (bytes : Nat) :
    (s.hostRead off bytes).inbox = s.inbox := by
  rcases s.hostRead_cases off bytes with ⟨-, h⟩ | ⟨-, h⟩ <;> simp [h]

/-- A host write is a legal write, or sets BUSERR only (20_memory.md R62). -/
@[simp] theorem State.hostWrite_inbox (s : State) (off : BitVec 12) (bytes : Nat) (x : Limb) :
    (s.hostWrite off bytes x).inbox = s.inbox := by
  rcases s.hostWrite_cases off bytes x with ⟨-, h⟩ | ⟨-, h⟩ <;> rw [h]
  · exact s.legalWrite_inbox _ x
  · rfl

/-- The engine's turn completes what is pending and takes no event (10_state.md R43). -/
theorem engineStep_leaves_idle (s : State) :
    ∃ t, engineStep s = .next t ∧ t.inbox = s.inbox ∧ t.pending = none := by
  cases hp : s.pending with
  | none => exact ⟨s, engineStep_of_idle hp, rfl, hp⟩
  | some c =>
    obtain ⟨i, u, code, he, heff⟩ := completeWord_completes c.word s
    obtain ⟨-, -, -, -, -, -, -, hin, -⟩ := heff.frame
    exact ⟨u.complete code, (engineStep_of_pending hp).trans he, hin, rfl⟩

/-- Serving an event adds and removes no other one. -/
theorem inbox_of_serveEvent {e : Event} {s t : State} (h : serveEvent e s = .next t) :
    t.inbox = s.inbox := by
  cases e with
  | read off bytes => exact Host.Outcome.next.inj h ▸ s.hostRead_inbox off bytes
  | write off bytes x => exact Host.Outcome.next.inj h ▸ s.hostWrite_inbox off bytes x
  | engine =>
    obtain ⟨u, he, hin, -⟩ := engineStep_leaves_idle s
    exact Host.Outcome.next.inj (he.symm.trans h) ▸ hin
  | hardReset => exact Host.Outcome.next.inj h ▸ rfl

/-- A run goes on from the state that its first step answers. -/
theorem run_succ_of_step {s t : State} (h : step s = .next t) (k : Nat) :
    Host.Core.run Sys2Proof.core (k + 1) s = Host.Core.run Sys2Proof.core k t := by
  have hcore : Sys2Proof.core.step s = .next t := h
  simp only [Host.Core.run, hcore]

/-- Settles O8, by induction on the events to come: a step serves the oldest and leaves the rest,
and with none left the engine's turn completes what is pending. -/
theorem acceptedCommandsComplete : Obligations.AcceptedCommandsComplete := by
  intro s
  generalize hl : s.inbox = l
  induction l generalizing s with
  | nil =>
    obtain ⟨t, he, hin, hp⟩ := engineStep_leaves_idle s
    exact ⟨t, run_succ_of_step ((step_of_inbox_nil hl).trans he) 0, hin.trans hl, hp⟩
  | cons e rest ih =>
    obtain ⟨u, hu⟩ := serveEvent_next e { s with inbox := rest }
    obtain ⟨t, ht, hdone⟩ := ih u (inbox_of_serveEvent hu)
    exact ⟨t, (run_succ_of_step ((step_of_inbox_cons hl).trans hu) _).trans ht, hdone⟩

/-! ### Both resets (70_reset_and_hazards.md R330 to R332) -/

/-- Every V register is 0 after reset (R331). -/
@[simp] theorem State.reset_readV (f : VField) : State.reset.readV f = 0 :=
  Vector.getElem_replicate _

/-- Every coordinate of every point register is 0 after reset (R331). -/
@[simp] theorem State.reset_readPt (k : PtField) : State.reset.readPt k = Point.zero :=
  Vector.getElem_replicate _

/-- A write to `CTRL` with `SRST` set is a soft reset, answered like any legal write (R332). -/
theorem serveEvent_write_srst (s : State) {x : Limb} (hx : x.getLsbD 2 = true) :
    serveEvent (.write 0x008#12 8 x) s =
      .next { s.resetAll with reply := some (.written false) } := by
  have hwrite : s.legalWrite (addrDecode (0x008#12 : BitVec 12).toNat) x = s.resetAll :=
    s.writeCtrl_of_srst hx
  rw [serveEvent_write_aligned s rfl, hwrite]

/-- Settles O9: `State.reset` holds the values of R331, and each reset is `State.resetAll`. -/
theorem resetLeavesEveryRegisterAtItsValue : Obligations.ResetLeavesEveryRegisterAtItsValue :=
  ⟨State.reset_readV, State.reset_readPt, rfl, rfl, rfl, rfl, by decide, by decide, rfl, rfl, rfl,
    fun _ => rfl, fun s _ => serveEvent_write_srst s⟩

/-- Settles O11: the reset state is a state that a reset leaves. -/
theorem resetMeetsTheInvariant : Obligations.ResetMeetsTheInvariant :=
  State.inv_resetAll State.reset

end Sys2Proof.Machine
